-- ==== Sys2Proof/Word.lean ====
section
/-! DEFINITION. The widths of the engine: a Word of 16 bits and a byte of 8 bits (R6, R9, R10). -/

namespace Sys2Proof

/-- A Word, held as its 16-bit pattern (R6, R10). -/
abbrev Word := BitVec 16

/-- A byte: an opcode field, an operand field, or one byte of the byte view (R39, R54). -/
abbrev Byte := BitVec 8

end Sys2Proof
end

