-- ==== Sys2Proof/Config.lean ====
section
/-! DEFINITION. The implementation parameters that stay fixed for a machine: the opcode values `OPC` and the text block
size `STR_BLOCK_BYTES` (R7). `ENTRY`, `ACC_INIT` and `BASE` are arguments of the launch and the loader. -/

namespace Sys2Proof

/-- The parameter OPC: the 8-bit opcode value of each of the eight mnemonics (R7, R58). -/
structure Opc where
  rdi  : Byte
  rds  : Byte
  prti : Byte
  prts : Byte
  b    : Byte
  bn   : Byte
  bz   : Byte
  halt : Byte
deriving DecidableEq, Repr

/-- The spec's default values (R58, decision D2). DESIGN CHOICE of the spec, not the repository's values: log entry 1. -/
def Opc.default : Opc :=
  { rdi := 0x0A, rds := 0x0B, prti := 0x0C, prts := 0x0D, b := 0x28, bn := 0x29, bz := 0x2A, halt := 0x2B }

/-- The eight values of OPC, in the order of R58. -/
def Opc.values (o : Opc) : List Byte :=
  [o.rdi, o.rds, o.prti, o.prts, o.b, o.bn, o.bz, o.halt]

/-- The parameters a machine is built with (R7). They are plain data, so that every claim can quantify over them. -/
structure Config where
  /-- OPC (R7, R58). -/
  opc      : Opc
  /-- STR_BLOCK_BYTES, called S: the size in bytes of the block of RDS and PRTS (R7, decision D11). -/
  strBlock : Nat
deriving DecidableEq, Repr

/-- The parameters of the spec's examples: the default OPC and S = 16 (DESIGN CHOICE, log entries 1 and 5). -/
def Config.default : Config := { opc := Opc.default, strBlock := 16 }

end Sys2Proof
end

