-- ==== Sys2Proof/Syntax.lean ====
section
/-! DEFINITION. The instruction set as syntax: one constructor per row of spec/opcode_table.json (R54, R58). -/

namespace Sys2Proof

/-- The closed set of eight mnemonics (R58). `halt` stands for END, which is a word of Lean's own. -/
inductive Mnemonic where
  | rdi | rds | prti | prts | b | bn | bz | halt
deriving DecidableEq, Repr

/-- The value OPC gives a mnemonic (R58). -/
def Opc.value (o : Opc) : Mnemonic → Byte
  | .rdi => o.rdi
  | .rds => o.rds
  | .prti => o.prti
  | .prts => o.prts
  | .b => o.b
  | .bn => o.bn
  | .bz => o.bz
  | .halt => o.halt

/-- An instruction: a mnemonic and its 8-bit operand (R54, R56). -/
inductive Instr where
  /-- RDI: read integer; `a` is the destination's word address (R91). -/
  | rdi (a : Byte)
  /-- RDS: read string; `a` is the text block's word address (R93). -/
  | rds (a : Byte)
  /-- PRTI: print integer; `a` is the source's word address (R95). -/
  | prti (a : Byte)
  /-- PRTS: print string; `a` is the text block's word address (R96). -/
  | prts (a : Byte)
  /-- B: branch always to word address `a` (R100). -/
  | b (a : Byte)
  /-- BN: branch to word address `a` if ACC is negative (R101). -/
  | bn (a : Byte)
  /-- BZ: branch to word address `a` if ACC is zero (R102). -/
  | bz (a : Byte)
  /-- END: halt; `x` is the operand byte the engine ignores (R62, R105). -/
  | halt (x : Byte)
deriving DecidableEq, Repr

/-- The mnemonic of an instruction. -/
def Instr.mnemonic : Instr → Mnemonic
  | .rdi _ => .rdi
  | .rds _ => .rds
  | .prti _ => .prti
  | .prts _ => .prts
  | .b _ => .b
  | .bn _ => .bn
  | .bz _ => .bz
  | .halt _ => .halt

/-- The operand byte of an instruction, the ignored byte of END included (R54, R62). -/
def Instr.operand : Instr → Byte
  | .rdi a => a
  | .rds a => a
  | .prti a => a
  | .prts a => a
  | .b a => a
  | .bn a => a
  | .bz a => a
  | .halt x => x

/-- The instruction with a given mnemonic and operand byte. -/
def Mnemonic.instr : Mnemonic → Byte → Instr
  | .rdi, a => .rdi a
  | .rds, a => .rds a
  | .prti, a => .prti a
  | .prts, a => .prts a
  | .b, a => .b a
  | .bn, a => .bn a
  | .bz, a => .bz a
  | .halt, x => .halt x

/-- The memory-referencing opcodes: all but END (R17, R135). -/
def Mnemonic.memoryReferencing : Mnemonic → Bool
  | .rdi | .rds | .prti | .prts | .b | .bn | .bz => true
  | .halt => false

end Sys2Proof
end

