-- ==== Sys2Proof/WellFormed.lean ====
section
/-! DEFINITION. The checks on what the spec constrains before a run. An operand is any 8-bit value (R54), so every term of
`Instr` is a well-formed instruction; what can be ill formed is the choice of parameters (R7) and the entry point (R132). -/

namespace Sys2Proof

/-- OPC is eight distinct values (R7). -/
def Opc.distinct (o : Opc) : Bool := decide o.values.Nodup

/-- STR_BLOCK_BYTES is in 1..200 (R7). -/
def Config.strBlockOk (c : Config) : Bool := decide (1 ≤ c.strBlock ∧ c.strBlock ≤ 200)

/-- The parameters are as R7 constrains them. -/
def Config.wf (c : Config) : Bool := c.opc.distinct && c.strBlockOk

/-- An entry point is a word address (R7, R132 (a)). -/
def entryOk (entry : Nat) : Bool := decide (entry ≤ 99)

/-- A load address is a word address (R7, R133). -/
def baseOk (base : Nat) : Bool := decide (base ≤ 99)

end Sys2Proof
end

