-- ==== Sys2Proof/Decode.lean ====
section
/-! DEFINITION. The decoder, total on every word and every list of bytes, and after it the encoder (R54 to R62, R79). -/

namespace Sys2Proof

/-- The opcode field, bits 15..8, unsigned (R55). -/
def opcodeOf (w : Word) : Byte := w.extractLsb' 8 8

/-- The operand field, bits 7..0, unsigned (R55). -/
def operandOf (w : Word) : Byte := w.extractLsb' 0 8

/-- `hi : lo`, the concatenation of R9. -/
def packWord (hi lo : Byte) : Word := hi ++ lo

/-- Why a decoder gives no instruction. -/
inductive DecodeError where
  /-- The opcode byte is none of the eight values of OPC (R59). The engine then raises IllegalOpcode (R83). -/
  | illegalOpcode (opcode : Byte)
  /-- Fewer bytes than one Word were given. Only `decodeBytes` answers it: the engine always fetches a whole Word (R61). -/
  | truncated
deriving DecidableEq, Repr

/-- The mnemonic an opcode byte selects: one comparison with the eight values, END first as in the step of R85. The order
matters only for an OPC that breaks the distinctness of R7 (log entry 14). -/
def mnemonicOf (opc : Opc) (o : Byte) : Option Mnemonic :=
  if o = opc.halt then some .halt
  else if o = opc.rdi then some .rdi
  else if o = opc.rds then some .rds
  else if o = opc.prti then some .prti
  else if o = opc.prts then some .prts
  else if o = opc.b then some .b
  else if o = opc.bn then some .bn
  else if o = opc.bz then some .bz
  else none

/-- Decode one Word. The operand field takes no part in selecting the instruction (R59). -/
def decode (opc : Opc) (w : Word) : Except DecodeError Instr :=
  match mnemonicOf opc (opcodeOf w) with
  | some m => .ok (m.instr (operandOf w))
  | none => .error (.illegalOpcode (opcodeOf w))

/-- Decode the first Word of a list of bytes that lie as memory holds them, low byte first (R39), and give the rest. -/
def decodeBytes (opc : Opc) : List Byte → Except DecodeError (Instr × List Byte)
  | lo :: hi :: rest =>
    match decode opc (packWord hi lo) with
    | .ok i => .ok (i, rest)
    | .error e => .error e
  | _ => .error .truncated

/-- The Word of an instruction: `opcode : operand` (R54, R79). -/
def encode (opc : Opc) (i : Instr) : Word := packWord (opc.value i.mnemonic) i.operand

/-- The bytes of an instruction as memory holds them, low byte first (R39). -/
def encodeBytes (opc : Opc) (i : Instr) : List Byte :=
  [operandOf (encode opc i), opcodeOf (encode opc i)]

/-- The two bytes, as memory holds them, of the Word whose bits are `w` below `nbits` and 0 above. -/
def tableWordBytes (nbits w : Nat) : List Byte :=
  [BitVec.ofNat 8 (w % 2 ^ nbits), BitVec.ofNat 8 (w % 2 ^ nbits / 256)]

/-- The instruction the decoder reads, under the default OPC, from a word of spec/opcode_table.json. -/
def decodeTableWord (nbits w : Nat) : Option Instr :=
  match decodeBytes Opc.default (tableWordBytes nbits w) with
  | .ok (i, _) => some i
  | .error _ => none

end Sys2Proof
end

