-- ==== Sys2Proof/Machine/State.lean ====
section
/-! DEFINITION. Everything the spec gives the machine, as plain data, and the machine right after a launch (R19 to R33). -/

namespace Sys2Proof.Machine

/-- The six faults of a run with their info (R109). `ip` is the IP of the faulting step. -/
inductive EngineFault where
  /-- Code 1: IP is not in 0..99 at fetch (R80). -/
  | fetchOutOfRange (ip : Word)
  /-- Code 2: the fetched opcode byte is none of the eight OPC values (R83). -/
  | illegalOpcode (ip : Word) (word : Word)
  /-- Code 3: a data access outside memory (R37, R40, R91, R93, R95, R96). -/
  | operandOutOfRange (ip : Word) (operand : Nat)
  /-- Code 4: the input port's answer cannot be used (R91, R93). -/
  | inputError (ip : Word)
  /-- Code 5: the line and its zero byte exceed the block (R93). -/
  | inputTooLong (ip : Word) (length : Nat)
  /-- Code 6: the backing store failed at an access (R112). -/
  | storeFault (ip : Word)
deriving DecidableEq, Repr

/-- RUN, the engine's run state (R27). -/
inductive Run where
  | running
  | halted
  | faulted (f : EngineFault)
deriving DecidableEq, Repr

/-- The host's answer to `InInt()` (R90). -/
inductive IntAnswer where
  | int (n : Int)
  /-- The next input is not an integer, or input has ended. -/
  | bad
deriving DecidableEq, Repr

/-- The host's answer to `InLine()` (R90). -/
inductive LineAnswer where
  /-- The line's bytes without the newline. -/
  | line (s : List Byte)
  /-- Input ended before any character. -/
  | eof
deriving DecidableEq, Repr

/-- One answer of the host: what the request that meets it is given, whichever of the two requests that is. The two parts
are unconstrained, so every sequence of answers to requests is some list of these (DESIGN CHOICE, log entry 6). -/
structure Answer where
  asInt  : IntAnswer
  asLine : LineAnswer
deriving DecidableEq, Repr

/-- An event on the output port (R90, R106). -/
inductive Event where
  | int (v : Int)
  | str (bytes : List Byte)
  | halt (ip ir acc : Word)
deriving DecidableEq, Repr

/-- The Memory Store as a list of (byte address, byte), in the byte view of R39: addresses strictly rising and below 200, and
no byte listed that equals what an unlisted address reads as, which is 0 (R45, R129). -/
abbrev Memory := List Host.Cell

/-- The state of the machine. -/
structure State where
  /-- The machine's parameters, fixed for the machine; no step writes them (R7). -/
  cfg       : Config
  /-- IP, the instruction pointer (R21). -/
  ip        : Word
  /-- IR, the instruction register (R24). -/
  ir        : Word
  /-- ACC, the accumulator; no opcode writes it (R25). -/
  acc       : Word
  /-- RUN, the run state (R27). -/
  run       : Run
  /-- The Memory Store (R29, R35). -/
  mem       : Memory
  /-- The host's whole input, as its answers in order (R33, R90). -/
  input     : List Answer
  /-- The input stream's position: how many answers have been taken (R30). -/
  inputPos  : Nat
  /-- The output sequence, oldest event first (R30, R90). -/
  output    : List Event
  /-- The running step is past its fetch and holds until the host answers (R86, R88; log entry 7). -/
  hold      : Bool
  /-- The backing store's draw: `some k` when `k` further accesses succeed and the next one fails, `none` when none fails
  (R112). The MODEL's own form of the draw (DESIGN CHOICE, log entry 8). -/
  storeDraw : Option Nat
deriving DecidableEq, Repr

/-- Why the machine takes no step. -/
inductive Fault where
  /-- `step` in `Halted`: the run has ended and no later step exists (R27, R107). Safe: the spec gives no step here. -/
  | halted
  /-- `step` in `Faulted(F, info)`: the run has ended and no later step exists (R27, R113). Safe: the spec gives no step here. -/
  | faulted (f : EngineFault)
deriving DecidableEq, Repr

/-- Why the model gives a step no meaning. -/
inductive Refusal where
  /-- `exec`, for an instruction without a meaning: no instruction of this model. Safe: nothing is claimed of it. -/
  | notModelled (mnemonic : String)
  /-- `step`, when some OPC value is 128 or more and the fetched Word has bit 15 set: the spec says that the dispatch of such
  a Word is not settled and that a model must refuse (93_implementation_defined.md row 21; log entry 10). Safe: no claim about such
  a step can be proved. It never happens under the default OPC. -/
  | negativeWordUnsettled (word : Word)
deriving DecidableEq, Repr

/-- The machine right after a launch on a newly created store (R33, R129, R130), with the spec's default parameters.
Memory, RUN, position and output are the spec's values; `cfg`, IP, IR, ACC, the host's answers and the store's draw are
DESIGN CHOICES (log entries 1 to 6 and 8). -/
def State.reset : State where
  cfg := Config.default
  ip := 0
  ir := 0
  acc := 0
  run := .running
  mem := []
  input := []
  inputPos := 0
  output := []
  hold := false
  storeDraw := none

end Sys2Proof.Machine
end

