-- ==== Sys2Proof/Machine/Ops.lean ====
section
/-! DEFINITION. The operations every instruction shares: reading and writing memory, the registers' updates, the host
ports, the backing store's draw, raising a fault, the fetch and the advance (R12, R13, R37, R40, R80, R84, R112, R113). -/

namespace Sys2Proof.Machine

/-! ### The Memory Store -/

/-- The byte at byte address `b`; an unlisted byte reads as 0, the value of a created store (R39, R129). -/
def Memory.readByte : Memory → Nat → Byte
  | [], _ => 0
  | (k, v) :: m, b => if k = b then v else Memory.readByte m b

/-- Write one byte and keep the canonical form: a zero byte is not listed. -/
def Memory.writeByte : Memory → Nat → Byte → Memory
  | [], b, v => if v = 0 then [] else [(b, v)]
  | (k, w) :: m, b, v =>
    if k < b then (k, w) :: Memory.writeByte m b v
    else if k = b then (if v = 0 then m else (b, v) :: m)
    else (if v = 0 then (k, w) :: m else (b, v) :: (k, w) :: m)

/-- The Word at word address `a`: its high byte is byte 2a+1, its low byte is byte 2a (R39). -/
def Memory.readWord (m : Memory) (a : Nat) : Word :=
  packWord (Memory.readByte m (2 * a + 1)) (Memory.readByte m (2 * a))

/-- Write the Word at word address `a` (R37, R39). -/
def Memory.writeWord (m : Memory) (a : Nat) (v : Word) : Memory :=
  Memory.writeByte (Memory.writeByte m (2 * a) (operandOf v)) (2 * a + 1) (opcodeOf v)

/-- The `n` bytes from byte address `b` on. -/
def Memory.readBytes (m : Memory) (b : Nat) : Nat → List Byte
  | 0 => []
  | n + 1 => Memory.readByte m b :: Memory.readBytes m (b + 1) n

/-- Write bytes from byte address `b` on, in order. -/
def Memory.writeBytes (m : Memory) (b : Nat) : List Byte → Memory
  | [] => m
  | v :: vs => Memory.writeBytes (Memory.writeByte m b v) (b + 1) vs

/-- Addresses strictly rise from above `lo` on (`none`: no lower bound), lie below 200, and no listed byte is 0. -/
def Memory.canonicalFrom : Option Nat → Memory → Bool
  | _, [] => true
  | lo, (k, v) :: m =>
    (match lo with | none => true | some l => decide (l < k)) && decide (k < 200) && decide (v ≠ 0)
      && Memory.canonicalFrom (some k) m

/-- The canonical form of a Memory Store: 200 byte addresses, strictly rising, no zero byte listed. -/
def Memory.wf (m : Memory) : Bool := Memory.canonicalFrom none m

/-! ### Updates of the state -/

/-- IP := v (R11). -/
def State.setIp (s : State) (v : Word) : State := { s with ip := v }

/-- IR := v; only the fetch writes IR (R24). -/
def State.setIr (s : State) (v : Word) : State := { s with ir := v }

/-- RUN := r (R27). -/
def State.setRun (s : State) (r : Run) : State := { s with run := r }

/-- Replace the contents of the Memory Store. -/
def State.setMem (s : State) (m : Memory) : State := { s with mem := m }

/-- The hold of R88 begins or ends. -/
def State.setHold (s : State) (h : Bool) : State := { s with hold := h }

/-- The backing store's draw after an access (R112). -/
def State.setStoreDraw (s : State) (d : Option Nat) : State := { s with storeDraw := d }

/-- `Out(e)`: append an event to the output sequence (R13, R90). -/
def State.emit (s : State) (e : Event) : State := { s with output := s.output ++ [e] }

/-- Take one answer from the input port: the position moves by one, and a hold is lifted (R30, R88). -/
def State.takeAnswer (s : State) : State := { s with inputPos := s.inputPos + 1, hold := false }

/-! ### Raising a fault -/

/-- The code of a fault (R109). -/
def EngineFault.code : EngineFault → Nat
  | .fetchOutOfRange _ => 1
  | .illegalOpcode _ _ => 2
  | .operandOutOfRange _ _ => 3
  | .inputError _ => 4
  | .inputTooLong _ _ => 5
  | .storeFault _ => 6

/-- The IP a fault records (R109). -/
def EngineFault.ip : EngineFault → Word
  | .fetchOutOfRange ip => ip
  | .illegalOpcode ip _ => ip
  | .operandOutOfRange ip _ => ip
  | .inputError ip => ip
  | .inputTooLong ip _ => ip
  | .storeFault ip => ip

/-- `raise F(info)`: RUN becomes Faulted(F, info) and nothing else changes. What the instruction already did stays; what it
has not yet done is withheld, because the step ends here (R13, R113). -/
def State.raise (s : State) (f : EngineFault) : State := s.setRun (.faulted f)

/-! ### Sequencing the parts of a step -/

/-- What a part of a step gives: a value and the state to go on from, or the state in which the step ends (a fault was
raised, or the engine holds for input). -/
inductive Access (α : Type) where
  | ok (v : α) (s : State)
  | stop (s : State)

/-- Go on with `f` unless the step has ended. -/
def Access.bind {α β : Type} (x : Access α) (f : α → State → Access β) : Access β :=
  match x with
  | .ok v s => f v s
  | .stop s => .stop s

/-- The state a part of a step leaves, ended or not. -/
def Access.state {α : Type} : Access α → State
  | .ok _ s => s
  | .stop s => s

/-- The execute phase's outcome: always a next state, since a raised fault and a hold are states of the machine. -/
def Access.finish {α : Type} (x : Access α) : Host.Outcome State Fault Refusal := .next x.state

/-! ### The backing store and the memory primitives -/

/-- `n` further accesses succeed under this draw (R112). -/
def drawAllows (n : Nat) : Option Nat → Bool
  | none => true
  | some k => decide (n ≤ k)

/-- The draw that is left after `n` accesses that succeeded. -/
def drawAfter (n : Nat) (d : Option Nat) : Option Nat := d.map (· - n)

/-- One access of the backing store: it succeeds, or the environment's draw makes it fail and StoreFault is raised (R112). -/
def storeAccess (s : State) : Access Unit :=
  match s.storeDraw with
  | none => .ok () s
  | some 0 => .stop (s.raise (.storeFault s.ip))
  | some (k + 1) => .ok () (s.setStoreDraw (some k))

/-- `MemRead(a, 2)` (R37). -/
def memReadWord (a : Nat) (s : State) : Access Word :=
  if a ≤ 99 then (storeAccess s).bind fun _ t => .ok (Memory.readWord t.mem a) t
  else .stop (s.raise (.operandOutOfRange s.ip a))

/-- `MemWrite(a, 2, v)` (R37). -/
def memWriteWord (a : Nat) (v : Word) (s : State) : Access Unit :=
  if a ≤ 99 then (storeAccess s).bind fun _ t => .ok () (t.setMem (Memory.writeWord t.mem a v))
  else .stop (s.raise (.operandOutOfRange s.ip a))

/-- `MemRead(b, 1)` (R40). -/
def memReadByte (b : Nat) (s : State) : Access Byte :=
  if b ≤ 199 then (storeAccess s).bind fun _ t => .ok (Memory.readByte t.mem b) t
  else .stop (s.raise (.operandOutOfRange s.ip (b / 2)))

/-- `MemWrite(b, 1, v)` (R40). -/
def memWriteByte (b : Nat) (v : Byte) (s : State) : Access Unit :=
  if b ≤ 199 then (storeAccess s).bind fun _ t => .ok () (t.setMem (Memory.writeByte t.mem b v))
  else .stop (s.raise (.operandOutOfRange s.ip (b / 2)))

/-- `MemRead(b + i, 1)` for i = 0 .. n-1, in order (R96). -/
def memReadBytes (b : Nat) : Nat → State → Access (List Byte)
  | 0, s => .ok [] s
  | n + 1, s => (memReadByte b s).bind fun v t => (memReadBytes (b + 1) n t).bind fun vs u => .ok (v :: vs) u

/-- `MemWrite(b + i, 1, vs[i])` for each i, in order (R93). -/
def memWriteBytes (b : Nat) : List Byte → State → Access Unit
  | [], s => .ok () s
  | v :: vs, s => (memWriteByte b v s).bind fun _ t => memWriteBytes (b + 1) vs t

/-! ### The input port -/

/-- `InInt()` and `InLine()` up to the answer: the host's next answer is taken, or the engine holds (R88, R90). -/
def askInput (s : State) : Access Answer :=
  match s.input[s.inputPos]? with
  | some ans => .ok ans s.takeAnswer
  | none => .stop (s.setHold true)

/-! ### The common parts of a step -/

/-- The fetch (R80). -/
def fetch (s : State) : Access Unit :=
  if s.ip.toNat ≤ 99 then
    (storeAccess s).bind fun _ t => .ok () (t.setIr (Memory.readWord t.mem t.ip.toNat))
  else .stop (s.raise (.fetchOutOfRange s.ip))

/-- The advance: after the execute phase of every opcode but END, if it raised no fault and does not hold (R84, R88). -/
def advance (s : State) : State :=
  if s.run = .running ∧ s.hold = false then s.setIp (s.ip + 1) else s

/-- The dispatch of this Word is settled: no OPC value is 128 or more, or bit 15 of the Word is clear
(93_implementation_defined.md row 21; log entry 10). -/
def dispatchSettled (opc : Opc) (w : Word) : Bool :=
  !w.msb || opc.values.all (fun o => decide (o.toNat < 128))

end Sys2Proof.Machine
end

