-- ==== Sys2Proof/Machine/Operands.lean ====
section
/-! DEFINITION. The operand forms, all absolute and unscaled (R56, R57), and the number readings of a Word (R10). -/

namespace Sys2Proof.Machine

/-- The operand as a word address, zero-extended (R56). -/
def wordAddr (a : Byte) : Nat := a.toNat

/-- The operand's byte address, the low byte of its word: where RDS and PRTS start (R39, R56, R81). -/
def byteAddr (a : Byte) : Nat := 2 * wordAddr a

/-- The operand as a branch target: `zext_16(a)` (R56, R99). -/
def branchTarget (a : Byte) : Word := a.setWidth 16

/-- The block of S bytes at word address `a` lies in memory (R93, R96). -/
def blockFits (c : Config) (a : Byte) : Bool := decide (byteAddr a + c.strBlock ≤ 200)

/-- `s16(p)`: a pattern read in two's complement (R10). -/
def s16 (p : Word) : Int := p.toInt

/-- `wrap16(n)` as a pattern: the Word congruent to n modulo 65536 (R10). -/
def wrap16 (n : Int) : Word := BitVec.ofInt 16 n

/-- n lies in the 32-bit range RDI accepts (R91, decision D14). -/
def fitsInt32 (n : Int) : Bool := decide (-2 ^ 31 ≤ n ∧ n ≤ 2 ^ 31 - 1)

end Sys2Proof.Machine
end

