-- ==== Sys2Proof/Machine/Flags.lean ====
section
/-! DEFINITION. The hardware has no flags (R26): BN and BZ compute their conditions from ACC when they execute. -/

namespace Sys2Proof.Machine

/-- The condition of BN: `s16(ACC) < 0` (R101). -/
def accNegative (s : State) : Bool := decide (s16 s.acc < 0)

/-- The condition of BZ: `ACC == 0` (R102). -/
def accZero (s : State) : Bool := decide (s.acc = 0)

end Sys2Proof.Machine
end

