-- ==== Sys2Proof/Machine/Branch.lean ====
section
/-! DEFINITION. The execute phases of B, BN and BZ (R99 to R104). -/

namespace Sys2Proof.Machine

/-- `branch_to(a)`: IP := zext_16(a) - 1 modulo 2^16, which the advance then makes `a` (R99). -/
def branchTo (a : Byte) (s : State) : State := s.setIp (branchTarget a - 1)

/-- B (R100). -/
def execB (a : Byte) (s : State) : Host.Outcome State Fault Refusal := .next (branchTo a s)

/-- BN (R101). -/
def execBn (a : Byte) (s : State) : Host.Outcome State Fault Refusal :=
  .next (if accNegative s then branchTo a s else s)

/-- BZ (R102). -/
def execBz (a : Byte) (s : State) : Host.Outcome State Fault Refusal :=
  .next (if accZero s then branchTo a s else s)

end Sys2Proof.Machine
end

