-- ==== Sys2Proof/Machine/Halt.lean ====
section
/-! DEFINITION. The execute phase of END: the halt report and the halted state (R105 to R108). -/

namespace Sys2Proof.Machine

/-- END (R105): the report holds IP, IR and ACC (R106); the operand byte is ignored (R62). -/
def execHalt (_x : Byte) (s : State) : Host.Outcome State Fault Refusal :=
  .next ((s.emit (.halt s.ip s.ir s.acc)).setRun .halted)

end Sys2Proof.Machine
end

