-- ==== Sys2Proof/Machine/Io.lean ====
section
/-! DEFINITION. The execute phases of RDI, RDS, PRTI and PRTS (R91 to R98). -/

namespace Sys2Proof.Machine

/-- RDI (R91): the address check comes before the request. The answer is consumed before it is judged, so one that raises
InputError, Bad or an integer outside the 32-bit range, is consumed too (DESIGN CHOICE, log entry 13). -/
def execRdi (a : Byte) (s : State) : Host.Outcome State Fault Refusal :=
  if wordAddr a ≤ 99 then
    ((askInput s).bind fun ans t =>
      match ans.asInt with
      | .bad => .stop (t.raise (.inputError t.ip))
      | .int n =>
        if fitsInt32 n then memWriteWord (wordAddr a) (wrap16 n) t
        else .stop (t.raise (.inputError t.ip))).finish
  else .next (s.raise (.operandOutOfRange s.ip (wordAddr a)))

/-- RDS (R93): the block check comes before the request; a line too long is consumed and writes nothing.
An Eof is consumed too (DESIGN CHOICE, log entry 13). -/
def execRds (a : Byte) (s : State) : Host.Outcome State Fault Refusal :=
  if blockFits s.cfg a then
    ((askInput s).bind fun ans t =>
      match ans.asLine with
      | .eof => .stop (t.raise (.inputError t.ip))
      | .line l =>
        if l.length + 1 ≤ s.cfg.strBlock then memWriteBytes (byteAddr a) (l ++ [0]) t
        else .stop (t.raise (.inputTooLong t.ip l.length))).finish
  else .next (s.raise (.operandOutOfRange s.ip (wordAddr a)))

/-- PRTI (R95). -/
def execPrti (a : Byte) (s : State) : Host.Outcome State Fault Refusal :=
  ((memReadWord (wordAddr a) s).bind fun w t => .ok () (t.emit (.int (s16 w)))).finish

/-- PRTS (R96): the whole block is read; the string is the bytes before its first zero byte. -/
def execPrts (a : Byte) (s : State) : Host.Outcome State Fault Refusal :=
  if blockFits s.cfg a then
    ((memReadBytes (byteAddr a) s.cfg.strBlock s).bind fun blk t =>
      .ok () (t.emit (.str (blk.takeWhile (· ≠ 0))))).finish
  else .next (s.raise (.operandOutOfRange s.ip (wordAddr a)))

end Sys2Proof.Machine
end

