-- ==== Sys2Proof/Machine/Dispatch.lean ====
section
/-! DEFINITION. The execute phase of every instruction: one arm per row of the opcode table (R83, R85). -/

namespace Sys2Proof.Machine

def exec (i : Instr) (s : State) : Host.Outcome State Fault Refusal :=
  match i with
  | .rdi a => Sys2Proof.Machine.execRdi a s
  | .rds a => Sys2Proof.Machine.execRds a s
  | .prti a => Sys2Proof.Machine.execPrti a s
  | .prts a => Sys2Proof.Machine.execPrts a s
  | .b a => Sys2Proof.Machine.execB a s
  | .bn a => Sys2Proof.Machine.execBn a s
  | .bz a => Sys2Proof.Machine.execBz a s
  | .halt x => Sys2Proof.Machine.execHalt x s

end Sys2Proof.Machine
end

