-- ==== Sys2Proof/Machine/Cycle.lean ====
section
/-! DEFINITION. The fetch-decode-execute cycle around the execute phases (R80 to R88). -/

namespace Sys2Proof.Machine

/-- Decode IR, execute, advance: the part of a step after its fetch (R81 to R84). An opcode byte outside OPC raises
IllegalOpcode (R83). -/
def execute (s : State) : Host.Outcome State Fault Refusal :=
  if dispatchSettled s.cfg.opc s.ir then
    match decode s.cfg.opc s.ir with
    | .ok i =>
      match exec i s with
      | .next t => .next (advance t)
      | .fault r => .fault r
      | .refused r => .refused r
    | .error _ => .next (s.raise (.illegalOpcode s.ip s.ir))
  else .refused (.negativeWordUnsettled s.ir)

/-- The step of R85. A step that holds for input is past its fetch, so going on with it fetches nothing (R86, R88; log
entry 7). From Halted and Faulted no step exists (R27, R107, R113). -/
def cycle (s : State) : Host.Outcome State Fault Refusal :=
  match s.run with
  | .halted => .fault .halted
  | .faulted f => .fault (.faulted f)
  | .running =>
    if s.hold then execute s
    else
      match fetch s with
      | .ok _ t => execute t
      | .stop t => .next t

/-- Put a Word where the next fetch reads, in a state whose next step fetches it: RUN is Running, no step is held, and no
store failure is drawn at the fetch. An IP outside memory is moved to 0, since no Word lies there. -/
def State.placeFetchWord (s : State) (w : Word) : State :=
  { s with
    ip := if s.ip.toNat ≤ 99 then s.ip else 0
    run := .running
    hold := false
    storeDraw := if s.storeDraw = some 0 then none else s.storeDraw
    mem := Memory.writeWord s.mem (if s.ip.toNat ≤ 99 then s.ip.toNat else 0) w }

end Sys2Proof.Machine
end

