-- ==== Sys2Proof/Machine/Step.lean ====
section
/-! DEFINITION. The step of the machine, one instruction a step (R86), and the host's way to place an instruction. -/

namespace Sys2Proof.Machine

/-- One step of the machine (R85). -/
def step (s : State) : Host.Outcome State Fault Refusal := cycle s

/-- `s` with the instruction whose bits are `w` below `nbits` and 0 above stored where `step` fetches next. It stands for
the load of a program from outside the machine (log entry 12). -/
def State.withFetchWord (s : State) (nbits w : Nat) : State :=
  s.placeFetchWord (BitVec.ofNat 16 (w % 2 ^ nbits))

end Sys2Proof.Machine
end

