-- ==== Sys2Proof/Machine/Assembler.lean ====
section
/-! DEFINITION. The assembler: the syntax programs are written in and the Words it makes of them (R63 to R78). It is the
toolchain (R4), run before a load; no step of the engine calls it. A text is a list of 8-bit characters in ASCII codes
(PRESUMED, log entry 16). -/

namespace Sys2Proof.Machine

/-- Source text, and any piece of it. -/
abbrev Text := List Byte

/-! ### Characters -/

/-- White space: space, and the control characters TAB to CR (PRESUMED, log entry 16). -/
def isSpaceChar (c : Byte) : Bool := decide (c.toNat = 0x20) || decide (9 ≤ c.toNat ∧ c.toNat ≤ 13)

/-- A printable character: codes 0x20 to 0x7E (PRESUMED, log entry 16). -/
def isPrintableChar (c : Byte) : Bool := decide (0x20 ≤ c.toNat ∧ c.toNat ≤ 0x7E)

/-- A decimal digit. -/
def isDigitChar (c : Byte) : Bool := decide (0x30 ≤ c.toNat ∧ c.toNat ≤ 0x39)

/-- A lower-case letter. -/
def isLowerChar (c : Byte) : Bool := decide (0x61 ≤ c.toNat ∧ c.toNat ≤ 0x7A)

/-- The upper-case form of a character (R63, R64). -/
def upperChar (c : Byte) : Byte := if isLowerChar c then c - 0x20 else c

/-- The double quote that opens and closes a string literal (R65). -/
def quoteChar : Byte := 0x22

/-- The colon that ends a label (R64). -/
def colonChar : Byte := 0x3A

/-- The end of a source line: LF alone; CR is white space (PRESUMED, log entry 33). -/
def newlineChar : Byte := 0x0A

/-- A text without the white space around it (R64). -/
def trimText (t : Text) : Text :=
  ((t.dropWhile isSpaceChar).reverse.dropWhile isSpaceChar).reverse

/-- The pieces of a text between the characters that satisfy `p`, empty ones included. -/
def splitText (p : Byte → Bool) : Text → List Text
  | [] => [[]]
  | c :: cs =>
    if p c then [] :: splitText p cs
    else
      match splitText p cs with
      | [] => [[c]]
      | l :: ls => (c :: l) :: ls

/-! ### Lexing a line -/

/-- What stands on a line beside its label. -/
inductive LineBody where
  /-- No quote character: the line's tokens (R64). -/
  | tokens (ts : List Text)
  /-- A closed string literal and its payload, verbatim (R65). -/
  | quoted (payload : Text)
  /-- A quote that nothing closes (R65). -/
  | unclosed
deriving DecidableEq, Repr

/-- A lexed line. -/
structure LexedLine where
  label : Option Text
  body  : LineBody
deriving DecidableEq, Repr

/-- One token: upper case, without the non-printable characters at its end (R64). -/
def cleanToken (t : Text) : Text :=
  ((t.map upperChar).reverse.dropWhile (fun c => !isPrintableChar c)).reverse

/-- The tokens of a text: its pieces between white space, up to the first non-printable one (R64). A token is non-printable when
nothing is left of it once its trailing non-printable characters are stripped; one that begins with or holds such a character
before a printable one is kept (DESIGN CHOICE, log entry 25). -/
def tokensOf (t : Text) : List Text :=
  (((splitText isSpaceChar t).filter (fun p => !p.isEmpty)).map cleanToken).takeWhile (fun p => !p.isEmpty)

/-- The label before the first colon of a text, trimmed, and the text after that colon; no label without a colon (R64). -/
def splitLabel (t : Text) : Option Text × Text :=
  if colonChar ∈ t then
    (some (trimText (t.takeWhile (· ≠ colonChar))), (t.dropWhile (· ≠ colonChar)).drop 1)
  else (none, t)

/-- Lex one line (R64, R65). With a quote on the line, a colon counts only before it, and the label there is trimmed as on a line
without a quote (DESIGN CHOICE, log entry 29). The quote that closes is the next one after
the first (DESIGN CHOICE, log entry 26). What else stands outside the quotes is dropped (DESIGN CHOICE, log entry 18). -/
def lexLine (t : Text) : LexedLine :=
  if quoteChar ∈ t then
    { label := (splitLabel (t.takeWhile (· ≠ quoteChar))).1
      body :=
        let rest := (t.dropWhile (· ≠ quoteChar)).drop 1
        if quoteChar ∈ rest then .quoted (rest.takeWhile (· ≠ quoteChar)) else .unclosed }
  else
    { label := (splitLabel t).1, body := .tokens (tokensOf (splitLabel t).2) }

/-! ### Classification -/

/-- The classification tags of R66, with what the encoder needs of the line. -/
inductive LineTag where
  | labelOnly
  | blank
  | dataWord (literal : Text)
  | instrNoOperand (mnemonic : Text)
  | instrWithLiteral (mnemonic literal : Text)
  | instrWithReference (mnemonic reference : Text)
  | invalidInstruction
  | stringLiteral (payload : Text)
  | invalidString
deriving DecidableEq, Repr

/-- A token starts with a digit (R66). -/
def startsWithDigit : Text → Bool
  | [] => false
  | c :: _ => isDigitChar c

/-- The one tag of a line (R66). -/
def classify (l : LexedLine) : LineTag :=
  match l.body with
  | .quoted p => .stringLiteral p
  | .unclosed => .invalidString
  | .tokens [] => if l.label.isSome then .labelOnly else .blank
  | .tokens [t] => if startsWithDigit t then .dataWord t else .instrNoOperand t
  | .tokens [m, o] => if startsWithDigit o then .instrWithLiteral m o else .instrWithReference m o
  | .tokens (_ :: _ :: _ :: _) => .invalidInstruction

/-- How many Words a line of this tag emits (R66). -/
def wordsEmitted : LineTag → Nat
  | .labelOnly => 0
  | .blank => 0
  | .dataWord _ => 1
  | .instrNoOperand _ => 1
  | .instrWithLiteral _ _ => 1
  | .instrWithReference _ _ => 1
  | .invalidInstruction => 0
  | .stringLiteral p => (p.length + 1) / 2
  | .invalidString => 0

/-! ### Numeric literals -/

/-- The value of a digit character, in any radix up to 16. -/
def digitValue (c : Byte) : Option Nat :=
  if isDigitChar c then some (c.toNat - 0x30)
  else if 0x41 ≤ c.toNat ∧ c.toNat ≤ 0x46 then some (c.toNat - 0x41 + 10)
  else if 0x61 ≤ c.toNat ∧ c.toNat ≤ 0x66 then some (c.toNat - 0x61 + 10)
  else none

/-- Go on reading digits of a radix from the value `acc`; `none` at a digit the radix does not allow (R67). -/
def digitsFrom (radix acc : Nat) : Text → Option Nat
  | [] => some acc
  | c :: cs =>
    match digitValue c with
    | some d => if d < radix then digitsFrom radix (acc * radix + d) cs else none
    | none => none

/-- The value of a numeric literal, by C's radix rules; `none` for a literal with a digit its radix does not allow (R67). -/
def literalValue : Text → Option Nat
  | [] => none
  | [c] => digitsFrom 10 0 [c]
  | c :: d :: rest =>
    if c = 0x30 then
      if d = 0x58 ∨ d = 0x78 then
        (match rest with
         | [] => none
         | h :: hs => digitsFrom 16 0 (h :: hs))
      else digitsFrom 8 0 (d :: rest)
    else digitsFrom 10 0 (c :: d :: rest)

/-- The upper-case hexadecimal digit of a value below 16. -/
def hexDigitChar (d : Nat) : Byte :=
  if d < 10 then BitVec.ofNat 8 (0x30 + d) else BitVec.ofNat 8 (0x41 + (d - 10))

/-- A Word's pattern as it is written in source text, `0x` and four digits: the way to write a negative data word (R68). -/
def hexWordText (w : Word) : Text :=
  [0x30, 0x78, hexDigitChar (w.toNat / 4096), hexDigitChar (w.toNat / 256 % 16), hexDigitChar (w.toNat / 16 % 16),
    hexDigitChar (w.toNat % 16)]

/-! ### Encoding a line -/

/-- The errors of a line (R76). -/
inductive LineError where
  | invalidInstruction
  | invalidString
deriving DecidableEq, Repr

/-- The mnemonics as they are written, in upper case (R58, R63). -/
def mnemonicText : Mnemonic → Text
  | .rdi => [0x52, 0x44, 0x49]
  | .rds => [0x52, 0x44, 0x53]
  | .prti => [0x50, 0x52, 0x54, 0x49]
  | .prts => [0x50, 0x52, 0x54, 0x53]
  | .b => [0x42]
  | .bn => [0x42, 0x4E]
  | .bz => [0x42, 0x5A]
  | .halt => [0x45, 0x4E, 0x44]

/-- Look a mnemonic up (R69 to R71). -/
def lookupMnemonic (t : Text) : Option Mnemonic :=
  [Mnemonic.rdi, .rds, .prti, .prts, .b, .bn, .bz, .halt].find? (fun m => decide (mnemonicText m = t))

/-- Two characters a Word, the first in the low byte; the filler of an odd length is 0 (R73). -/
def packString : Text → List Word
  | [] => []
  | [c] => [packWord 0 c]
  | c :: d :: rest => packWord d c :: packString rest

/-- The label table: names with their word addresses, in the order of the source lines that define them (log entry 28). -/
abbrev LabelTable := List (Text × Nat)

/-- Resolve a name: the first definition wins (R75). -/
def resolveLabel (table : LabelTable) (name : Text) : Option Nat :=
  (table.find? (fun e => decide (e.1 = name))).map (·.2)

/-- The one Word of an instruction line with this operand, or an error when the mnemonic is unknown or the operand does not
fit its byte (R54, R69, R70). -/
def encodeInstr (opc : Opc) (mnemonic : Text) (operand : Nat) : Except LineError (List Word) :=
  match lookupMnemonic mnemonic with
  | some m => if operand ≤ 255 then .ok [encode opc (m.instr (BitVec.ofNat 8 operand))] else .error .invalidInstruction
  | none => .error .invalidInstruction

/-- The Words of a line (R69 to R73). -/
def encodeLine (opc : Opc) (table : LabelTable) : LineTag → Except LineError (List Word)
  | .labelOnly => .ok []
  | .blank => .ok []
  | .dataWord l =>
    match literalValue l with
    | some v => .ok [wrap16 v]
    | none => .error .invalidInstruction
  | .instrNoOperand m => encodeInstr opc m 0
  | .instrWithLiteral m l =>
    match literalValue l with
    | some v => encodeInstr opc m v
    | none => .error .invalidInstruction
  | .instrWithReference m r =>
    match resolveLabel table r with
    | some a => encodeInstr opc m a
    | none => .error .invalidInstruction
  | .invalidInstruction => .error .invalidInstruction
  | .stringLiteral p => .ok (packString p)
  | .invalidString => .error .invalidString

/-! ### Labels -/

/-- A label name the syntax admits: one run of 1 to 14 characters without white space (R75; log entry 17). -/
def labelNameOk (n : Text) : Bool :=
  decide (1 ≤ n.length ∧ n.length ≤ 14) && n.all (fun c => !isSpaceChar c)

/-- The Words of a lexed line, or its error; a label that is not a name is an InvalidInstruction (R75),
and that is the one error the line reports, also when its string is unclosed (DESIGN CHOICE, log entry 31). A lower-case
letter in the label refuses the source before any line is encoded (log entries 20 and 32). -/
def encodeLexed (opc : Opc) (table : LabelTable) (l : LexedLine) : Except LineError (List Word) :=
  match l.label with
  | some n => if labelNameOk n then encodeLine opc table (classify l) else .error .invalidInstruction
  | none => encodeLine opc table (classify l)

/-- One definition of a label: its name, the 1-based line it stands on, and its word address once that is known. -/
structure LabelDef where
  name : Text
  line : Nat
  addr : Option Nat
deriving DecidableEq, Repr

/-- Give a saved label its address; a label that has one keeps it. -/
def LabelDef.bind (index : Nat) (d : LabelDef) : LabelDef :=
  match d.addr with
  | none => { d with addr := some index }
  | some _ => d

/-- What pass 1 carries: the index of the next Word, and the definitions so far in the order of their lines. A saved label is a
definition without an address (R74, R75). -/
structure LabelPass where
  index : Nat
  defs  : List LabelDef
deriving DecidableEq, Repr

/-- The label table of a pass: the definitions that have an address, in the order of their lines, so that the first definition
in the source is the one R75 resolves to, also when its label was saved and bound after a later one (log entry 28). -/
def LabelPass.table (p : LabelPass) : LabelTable := p.defs.filterMap (fun d => d.addr.map (fun a => (d.name, a)))

/-- The labels still saved, with their lines: at the end of the file, the dangling ones (R75). -/
def LabelPass.dangling (p : LabelPass) : List (Nat × Text) :=
  (p.defs.filter (fun d => d.addr.isNone)).map (fun d => (d.line, d.name))

/-- Pass 1 at one line (R74). A line with a label of its own binds it, or saves it when the line is `LabelOnly`. A line
without one binds the saved labels, unless it is blank (DEDUCED, log entry 21). A label bound at an empty string, whose line emits
no Word, has the index of the next Word (DESIGN CHOICE, log entry 27). A label that is not an admitted name is entered like any
other, although its line is an error (DESIGN CHOICE, log entry 30). -/
def labelPassLine (p : LabelPass) (lineNo : Nat) (l : LexedLine) : LabelPass :=
  match l.label, classify l with
  | some n, .labelOnly => { p with defs := p.defs ++ [{ name := n, line := lineNo, addr := none }] }
  | some n, tag =>
    { index := p.index + wordsEmitted tag
      defs := p.defs ++ [{ name := n, line := lineNo, addr := some p.index }] }
  | none, .blank => p
  | none, tag =>
    { index := p.index + wordsEmitted tag
      defs := p.defs.map (LabelDef.bind p.index) }

/-- Pass 1 from line `lineNo` on (R76). -/
def labelPass (p : LabelPass) (lineNo : Nat) : List LexedLine → LabelPass
  | [] => p
  | l :: ls => labelPass (labelPassLine p lineNo l) (lineNo + 1) ls

/-! ### The driver -/

/-- The result of an assembly (R76). -/
structure Assembly where
  /-- The output, one Word per encoded unit in source order; unusable if there is an error. -/
  words    : List Word
  /-- The line-level errors with their 1-based line numbers. -/
  errors   : List (Nat × LineError)
  /-- The dangling labels with their 1-based line numbers (R75). -/
  warnings : List (Nat × Text)
  /-- The label table of pass 1. -/
  table    : LabelTable
deriving DecidableEq, Repr

/-- `BadProgram`: some line has an error (R76). -/
def Assembly.badProgram (r : Assembly) : Bool := !r.errors.isEmpty

/-- Pass 2 from line `lineNo` on: the Words and the errors (R76). -/
def encodePass (opc : Opc) (table : LabelTable) (lineNo : Nat) :
    List LexedLine → List Word × List (Nat × LineError)
  | [] => ([], [])
  | l :: ls =>
    let rest := encodePass opc table (lineNo + 1) ls
    match encodeLexed opc table l with
    | .ok ws => (ws ++ rest.1, rest.2)
    | .error e => (rest.1, (lineNo, e) :: rest.2)

/-- Why the assembler takes no part in a source: the spec gives no result for it. -/
inductive AssemblyRefusal where
  /-- A label has a lower-case letter; the admitted syntax requires upper case (R75; log entry 20). Safe. -/
  | labelNotUpperCase
  /-- A referenced label's address exceeds 255, the silent truncation hazard (R70; log entry 20). Safe. -/
  | labelAddressTooLarge
  /-- Two lines have the same label name, an ambiguity no claim may rely on (R75; 93_implementation_defined.md row 3; log entry
  28). Safe. -/
  | duplicateLabel
deriving DecidableEq, Repr

/-- The lexed lines of a source. A line that is purely a comment is a blank line; the comment syntax is the parameter
COMMENT_SYNTAX (R74, R78; log entry 22). -/
def lexSource (isComment : Text → Bool) (src : Text) : List LexedLine :=
  (splitText (· = newlineChar) src).map (fun t => if isComment t then lexLine [] else lexLine t)

/-- Some label has a lower-case letter. Any text before a line's first colon counts as a label here, one that is no admitted name
included, so such a source is refused whole (DESIGN CHOICE, log entry 32). -/
def hasLowerLabel (ls : List LexedLine) : Bool :=
  ls.any (fun l => match l.label with | some n => n.any isLowerChar | none => false)

/-- Two lines have the same label name, of those the syntax admits (93_implementation_defined.md row 3; log entry 28). -/
def hasDuplicateLabel (ls : List LexedLine) : Bool :=
  !decide ((ls.filterMap (·.label)).filter labelNameOk).Nodup

/-- Some reference resolves to an address above 255. -/
def hasLargeReference (table : LabelTable) (ls : List LexedLine) : Bool :=
  ls.any (fun l =>
    match classify l with
    | .instrWithReference _ r =>
      (match resolveLabel table r with | some a => decide (255 < a) | none => false)
    | _ => false)

/-- The two passes over the lexed lines (R76). -/
def assembleLines (opc : Opc) (ls : List LexedLine) : Assembly :=
  let p := labelPass { index := 0, defs := [] } 1 ls
  let out := encodePass opc p.table 1 ls
  { words := out.1, errors := out.2, warnings := p.dangling, table := p.table }

/-- Assemble a source program (R63, R76). Which of two refusals is named when both apply is the model's choice (DESIGN CHOICE, log
entry 28). -/
def assemble (opc : Opc) (isComment : Text → Bool) (src : Text) : Except AssemblyRefusal Assembly :=
  let ls := lexSource isComment src
  if hasLowerLabel ls then .error .labelNotUpperCase
  else if hasDuplicateLabel ls then .error .duplicateLabel
  else if hasLargeReference (assembleLines opc ls).table ls then .error .labelAddressTooLarge
  else .ok (assembleLines opc ls)

/-- COMMENT_SYNTAX of the spec's examples: they use no comments (R78). -/
def noComments : Text → Bool := fun _ => false

end Sys2Proof.Machine
end

