-- ==== Sys2Proof/Machine/Launch.lean ====
section
/-! DEFINITION. Creation of the store and the launch of a run, the engine's reset (R129 to R132). -/

namespace Sys2Proof.Machine

/-- A newly created Memory Store: 100 words of value 0, so nothing is listed (R129). -/
def createdStore : Memory := []

/-- What a launch is given (R130): the parameters ENTRY and ACC_INIT, any IR (R33), the host's whole input, and the
environment's draw of R112. -/
structure LaunchInput where
  entry     : Nat
  accInit   : Word
  irInit    : Word
  input     : List Answer
  storeDraw : Option Nat
deriving DecidableEq, Repr

/-- Why a launch is refused. -/
inductive LaunchRefusal where
  /-- ENTRY is not in 0..99 (R132 (a)): the model has no run for it. Safe. -/
  | entryOutOfRange
deriving DecidableEq, Repr

/-- `launch(ENTRY, ACC_INIT)` (R130). Memory is what the last load and the earlier runs left (R45); the registers of an
earlier run are not restored (R20). -/
def launch (c : Config) (l : LaunchInput) (m : Memory) : Except LaunchRefusal State :=
  if entryOk l.entry then
    .ok { cfg := c
          ip := BitVec.ofNat 16 l.entry
          ir := l.irInit
          acc := l.accInit
          run := .running
          mem := m
          input := l.input
          inputPos := 0
          output := []
          hold := false
          storeDraw := l.storeDraw }
  else .error .entryOutOfRange

end Sys2Proof.Machine
end

