-- ==== Sys2Proof/Machine/Loader.lean ====
section
/-! DEFINITION. The loader port: relocation and the write of a word stream into the Memory Store (R133 to R138). -/

namespace Sys2Proof.Machine

/-- Why a load is refused whole, with nothing written. -/
inductive LoadRefusal where
  /-- BASE > 99 or BASE + n > 100 (R133). Safe: a refused load has no run. -/
  | loadOutOfRange
  /-- Some relocated operand would exceed 255 (R136). Safe: a refused load has no run. -/
  | relocationOverflow
deriving DecidableEq, Repr

/-- The opcode byte is one of the seven memory-referencing values; END is not (R135). -/
def isMemoryReferencing (opc : Opc) (o : Byte) : Bool :=
  decide (o ∈ [opc.rdi, opc.rds, opc.prti, opc.prts, opc.b, opc.bn, opc.bz])

/-- `reloc(w)` (R135); `none` when the relocated operand would exceed 255 (R136). The high byte alone decides (R137). -/
def reloc (opc : Opc) (base : Nat) (w : Word) : Option Word :=
  if isMemoryReferencing opc (opcodeOf w) then
    if (operandOf w).toNat + base ≤ 255 then
      some (packWord (opcodeOf w) (BitVec.ofNat 8 ((operandOf w).toNat + base)))
    else none
  else some w

/-- Relocate a stream, word by word; `none` when any word overflows (R136). -/
def relocAll (opc : Opc) (base : Nat) : List Word → Option (List Word)
  | [] => some []
  | w :: ws =>
    match reloc opc base w, relocAll opc base ws with
    | some v, some vs => some (v :: vs)
    | _, _ => none

/-- Memory[a + i] := ws[i] for each i, in order (R134). -/
def writeWords (m : Memory) (a : Nat) : List Word → Memory
  | [] => m
  | w :: ws => writeWords (Memory.writeWord m a w) (a + 1) ws

/-- A load of the stream `ws` at BASE = `base` (R133 to R136). Which of two refusals is named when both apply is the model's
choice (DESIGN CHOICE, log entry 15). -/
def load (opc : Opc) (base : Nat) (ws : List Word) (m : Memory) : Except LoadRefusal Memory :=
  if baseOk base ∧ base + ws.length ≤ 100 then
    match relocAll opc base ws with
    | some vs => .ok (writeWords m base vs)
    | none => .error .relocationOverflow
  else .error .loadOutOfRange

end Sys2Proof.Machine
end

