-- ==== Sys2Proof/Safety.lean ====
section
/-! DEFINITION. What claims are stated in terms of: the end of a run, a run free of faults, the states runs reach, the
instruction a step will run, the order of a step's checks, and the invariant every step keeps. -/

namespace Sys2Proof.Machine

/-- The run has ended: RUN has left Running (R128). A hold is not an end (R88). -/
def State.ended (s : State) : Bool := decide (s.run ≠ .running)

/-- The run has ended in a fault (R109). -/
def State.isFaulted (s : State) : Bool :=
  match s.run with
  | .faulted _ => true
  | _ => false

/-- A safe state: no fault has ended the run. END and a hold are safe; a program that reaches no fault is safe (R108, R109). -/
def State.safe (s : State) : Bool := !s.isFaulted

/-- The environment draws no store failure: the premise of R112. -/
def State.noStoreFault (s : State) : Bool := decide (s.storeDraw = none)

/-- Some number of steps leads from `s` to `t`. -/
def Reaches (s t : State) : Prop := ∃ k, Sys2Proof.core.run k s = .next t

/-- A step begins and its fetch succeeds: the engine runs, no earlier step holds, IP is a word address, and the environment
draws no failure for the fetch (R80, R85, R112). -/
def State.fetchable (s : State) : Bool :=
  decide (s.run = .running) && !s.hold && decide (s.ip.toNat ≤ 99) && drawAllows 1 s.storeDraw

/-- The Word at IP. -/
def State.wordAtIp (s : State) : Word := Memory.readWord s.mem s.ip.toNat

/-- The state after a fetch that succeeds: IR holds the Word at IP, and the store has served one access (R80, R112). -/
def State.afterFetch (s : State) : State :=
  { s with ir := s.wordAtIp, storeDraw := drawAfter 1 s.storeDraw }

/-- The step of `s` fetches and runs the instruction `i`: the fetch succeeds, the Word's dispatch is settled, and the Word
decodes to `i` (R80 to R83). -/
def State.willRun (s : State) (i : Instr) : Prop :=
  s.fetchable = true ∧ dispatchSettled s.cfg.opc s.wordAtIp = true ∧ decode s.cfg.opc s.wordAtIp = .ok i

/-- A branch that is taken: B, or BN with a negative accumulator, or BZ with a zero one, to the operand `a` (R99 to R102). -/
def State.takesBranch (s : State) (i : Instr) (a : Byte) : Prop :=
  i = .b a ∨ (i = .bn a ∧ s16 s.acc < 0) ∨ (i = .bz a ∧ s.acc = 0)

/-! ### The order of a step's checks -/

/-- The code of the fault RUN holds, if it holds one (R109, R127). -/
def Run.faultCode : Run → Option Nat
  | .running => none
  | .halted => none
  | .faulted f => some f.code

/-- The code of the first check of the execute phase that fails, in the order of R115: the operand (3), then the input (4),
then the line's length (5), then the store at the data accesses (6). `none` when none fails, or when the engine holds. -/
def State.firstExecFault (s : State) : Instr → Option Nat
  | .rdi a =>
    if 99 < wordAddr a then some 3
    else
      match s.input[s.inputPos]? with
      | none => none
      | some ans =>
        match ans.asInt with
        | .bad => some 4
        | .int n => if fitsInt32 n then (if drawAllows 1 s.storeDraw then none else some 6) else some 4
  | .rds a =>
    if 200 < byteAddr a + s.cfg.strBlock then some 3
    else
      match s.input[s.inputPos]? with
      | none => none
      | some ans =>
        match ans.asLine with
        | .eof => some 4
        | .line l =>
          if s.cfg.strBlock < l.length + 1 then some 5
          else if drawAllows (l.length + 1) s.storeDraw then none else some 6
  | .prti a =>
    if 99 < wordAddr a then some 3 else if drawAllows 1 s.storeDraw then none else some 6
  | .prts a =>
    if 200 < byteAddr a + s.cfg.strBlock then some 3
    else if drawAllows s.cfg.strBlock s.storeDraw then none else some 6
  | .b _ => none
  | .bn _ => none
  | .bz _ => none
  | .halt _ => none

/-- The code of the first check of a step that fails, in the order of R115: the fetch (1, or 6 when the store fails at it), then
the opcode (2), then the execute phase. -/
def State.firstFault (s : State) : Option Nat :=
  if 99 < s.ip.toNat then some 1
  else if drawAllows 1 s.storeDraw then
    match decode s.cfg.opc s.wordAtIp with
    | .error _ => some 2
    | .ok i => s.afterFetch.firstExecFault i
  else some 6

/-! ### The invariant -/

/-- An event is a halt report (R106). -/
def Event.isHalt : Event → Bool
  | .halt _ _ _ => true
  | _ => false

/-- The integers of the output are those of a Word (R90). -/
def Event.inRange : Event → Bool
  | .int v => decide (-32768 ≤ v ∧ v ≤ 32767)
  | _ => true

/-- What RUN says of the rest of the state: a running engine has emitted no halt report (R106); a halted one has emitted one,
last, with its registers, and its IP is the address of the END Word in IR (R105, R106, R108); a faulted one has emitted none and
its IP is the one the fault records (R113, R114). -/
def State.runOk (s : State) : Prop :=
  match s.run with
  | .running => ∀ e ∈ s.output, e.isHalt = false
  | .halted =>
      (∃ before, s.output = before ++ [.halt s.ip s.ir s.acc] ∧ ∀ e ∈ before, e.isHalt = false)
      ∧ s.ip.toNat ≤ 99 ∧ s.ir = Memory.readWord s.mem s.ip.toNat ∧ opcodeOf s.ir = s.cfg.opc.halt
  | .faulted f => (∀ e ∈ s.output, e.isHalt = false) ∧ f.ip = s.ip

/-- What a hold says of the rest of the state: the engine runs, IR holds the Word at IP, and that Word is an RDI or RDS whose
operand passed its check (R86, R88). -/
def State.holdOk (s : State) : Prop :=
  s.hold = true →
    s.run = .running ∧ s.ip.toNat ≤ 99 ∧ s.ir = Memory.readWord s.mem s.ip.toNat ∧
    ∃ a, (decode s.cfg.opc s.ir = .ok (.rdi a) ∧ wordAddr a ≤ 99) ∨
         (decode s.cfg.opc s.ir = .ok (.rds a) ∧ blockFits s.cfg a = true)

/-- The invariant of the machine. Memory is canonical; the parameters are as R7 constrains them; IP is at most 256 (R23); the
input position lies within the input (R30); the printed integers are those of Words (R90); RUN and the hold fit the rest. -/
structure State.Inv (s : State) : Prop where
  mem_wf     : Memory.wf s.mem = true
  cfg_wf     : s.cfg.wf = true
  ip_le      : s.ip.toNat ≤ 256
  pos_le     : s.inputPos ≤ s.input.length
  ints_ok    : ∀ e ∈ s.output, e.inRange = true
  run_ok     : s.runOk
  hold_ok    : s.holdOk

end Sys2Proof.Machine
end

