-- ==== Sys2Proof/Certificates/Slice0/Obligations.lean ====
section
/-! DEFINITION. The statements about the model, for the provers: one definition each, in the order of OBLIGATIONS.json. -/

open Sys2Proof Sys2Proof.Machine

/-! ### Encoding -/

/-- Words written out from the encodings of 30_encoding.md section 2 decode to the instructions they stand for. -/
def Obligations.SpecWordsDecode : Prop :=
  decode Opc.default 0b0000101000010100 = .ok (.rdi 20) ∧
  decode Opc.default 0b0000101100011110 = .ok (.rds 30) ∧
  decode Opc.default 0b0000110001100011 = .ok (.prti 99) ∧
  decode Opc.default 0b0000110100101000 = .ok (.prts 40) ∧
  decode Opc.default 0b0010100000000101 = .ok (.b 5) ∧
  decode Opc.default 0b0010100100001001 = .ok (.bn 9) ∧
  decode Opc.default 0b0010101011111111 = .ok (.bz 255) ∧
  decode Opc.default 0b0010101100000111 = .ok (.halt 7)

/-- R79, for every choice of OPC and every instruction with every operand. -/
def Obligations.DecodeInvertsEncode : Prop :=
  (∀ w : Word, (opcodeOf w).toNat = w.toNat / 256 ∧ (operandOf w).toNat = w.toNat % 256) ∧
  ∀ (opc : Opc) (i : Instr), opc.distinct = true →
    decode opc (encode opc i) = .ok i ∧
    (decode opc (encode opc i)).map (encode opc) = .ok (encode opc i) ∧
    opcodeOf (encode opc i) = opc.value i.mnemonic ∧ operandOf (encode opc i) = i.operand ∧
    (encode opc i).toNat = (opc.value i.mnemonic).toNat * 256 + i.operand.toNat ∧
    decodeBytes opc (encodeBytes opc i) = .ok (i, [])

/-- Each Word has one meaning: an instruction read from a Word encodes back to that very Word (R54, R55). -/
def Obligations.EncodeInvertsDecode : Prop :=
  ∀ (opc : Opc) (w : Word) (i : Instr), decode opc w = .ok i → encode opc i = w

/-- The illegal opcode bytes are exactly those outside OPC, 248 of them, whatever the operand (R59). -/
def Obligations.IllegalOpcodesAreTheOther248 : Prop :=
  ∀ opc : Opc, opc.distinct = true →
    (∀ w, (∃ e, decode opc w = .error e) ↔ opcodeOf w ∉ opc.values) ∧
    ((List.range 256).filter (fun n => decide (BitVec.ofNat 8 n ∉ opc.values))).length = 248 ∧
    (∀ w w', opcodeOf w = opcodeOf w' →
      (decode opc w).map Instr.mnemonic = (decode opc w').map Instr.mnemonic)

/-- R60: under the default OPC, zero and every negative Word are illegal, and an all-zero store faults at the first fetch. -/
def Obligations.ZeroAndNegativeWordsIllegalByDefault : Prop :=
  (∃ e, decode Opc.default 0 = .error e) ∧
  (∀ w : Word, s16 w < 0 → ∃ e, decode Opc.default w = .error e) ∧
  (∀ s : State, s.cfg.opc = Opc.default → s.fetchable = true → (∀ b, Memory.readByte s.mem b = 0) →
    step s = .next { s.afterFetch with run := .faulted (.illegalOpcode s.ip 0) })

/-! ### The engine's step -/

/-- A step that fetches an instruction is the instruction's execute phase after the fetch, and then the advance, unless the
instruction ended the run or holds (R81 to R85). A step that goes on after a hold runs the instruction in IR, without a fetch
(R88; DEDUCED, log entry 7). The settled dispatch is log entry 10. -/
def Obligations.StepRunsTheDecodedInstruction : Prop :=
  (∀ (s : State) (i : Instr), s.willRun i →
    ∃ t, exec i s.afterFetch = .next t ∧
      step s = .next (if t.run = .running ∧ t.hold = false then { t with ip := t.ip + 1 } else t)) ∧
  (∀ (s : State) (i : Instr), s.run = .running → s.hold = true → dispatchSettled s.cfg.opc s.ir = true →
    decode s.cfg.opc s.ir = .ok i →
    ∃ t, exec i s = .next t ∧
      step s = .next (if t.run = .running ∧ t.hold = false then { t with ip := t.ip + 1 } else t))

/-- R80. -/
def Obligations.FetchLoadsIrOrFaults : Prop :=
  ∀ s : State, s.run = .running → s.hold = false →
    (99 < s.ip.toNat → step s = .next { s with run := .faulted (.fetchOutOfRange s.ip) }) ∧
    (s.ip.toNat ≤ 99 → drawAllows 1 s.storeDraw = true → ∀ t, step s = .next t → t.ir = Memory.readWord s.mem s.ip.toNat)

/-- A store failure drawn at the fetch ends the run there, and IR keeps its old value (R112, R113). -/
def Obligations.StoreFaultAtFetch : Prop :=
  ∀ s : State, s.run = .running → s.hold = false → s.ip.toNat ≤ 99 → s.storeDraw = some 0 →
    step s = .next { s with run := .faulted (.storeFault s.ip) }

/-- A fetched opcode byte outside OPC raises IllegalOpcode with IP and the Word; nothing else changes but IR (R83).
The settled dispatch is log entry 10. -/
def Obligations.IllegalOpcodeFaults : Prop :=
  ∀ s : State, s.fetchable = true → dispatchSettled s.cfg.opc s.wordAtIp = true → opcodeOf s.wordAtIp ∉ s.cfg.opc.values →
    step s = .next { s.afterFetch with run := .faulted (.illegalOpcode s.ip s.wordAtIp) }

/-- A hold begins when the host has not answered, lasts as long as it does not answer, and ends with its answer (R88). The form of
the hold is the model's (log entry 7), and so is the last clause's input position after an answer that raises InputError: Bad, Eof, or an
integer outside the 32-bit range (DESIGN CHOICE, log entry 13). -/
def Obligations.HoldLastsUntilTheAnswer : Prop :=
  (∀ (s : State) (a : Byte), (s.willRun (.rdi a) ∧ wordAddr a ≤ 99) ∨ (s.willRun (.rds a) ∧ blockFits s.cfg a = true) →
    s.input[s.inputPos]? = none → step s = .next { s.afterFetch with hold := true }) ∧
  (∀ s : State, s.hold = true → s.holdOk → dispatchSettled s.cfg.opc s.ir = true →
    (s.input[s.inputPos]? = none → ∀ k, Sys2Proof.core.run k s = .next s ∧ s.ended = false) ∧
    (s.input[s.inputPos]? ≠ none → ∃ t, step s = .next t ∧ t.hold = false ∧ t.inputPos = s.inputPos + 1))

/-- Halted and Faulted are terminal, and a running engine always has a step, but for a Word whose dispatch is not settled
(R27, R107, R113; that exception is the model's, log entry 10, and so is the form of the answer after an end, log entry 9). -/
def Obligations.OnlyEndedRunsHaveNoStep : Prop :=
  (∀ s : State, s.run = .halted → step s = .fault .halted) ∧
  (∀ (s : State) (f : EngineFault), s.run = .faulted f → step s = .fault (.faulted f)) ∧
  (∀ s : State, s.run = .running → dispatchSettled s.cfg.opc (if s.hold then s.ir else s.wordAtIp) = true →
    ∃ t, step s = .next t)

/-- Every instruction's execute phase answers a next state in every state. -/
def Obligations.EveryInstructionAnswersANextState : Prop :=
  ∀ (i : Instr) (s : State), ∃ t, exec i s = .next t

/-! ### Input and output -/

/-- RDI stores the answered integer, wrapped to 16 bits, and changes nothing else but the input position (R91). -/
def Obligations.RdiStoresTheInteger : Prop :=
  ∀ (s : State) (a : Byte) (ans : Answer) (n : Int),
    Memory.wf s.mem = true → wordAddr a ≤ 99 → s.input[s.inputPos]? = some ans → ans.asInt = .int n →
    -2 ^ 31 ≤ n → n ≤ 2 ^ 31 - 1 → drawAllows 1 s.storeDraw = true →
    ∃ m, exec (.rdi a) s =
        .next { s with mem := m, inputPos := s.inputPos + 1, hold := false, storeDraw := drawAfter 1 s.storeDraw } ∧
      Memory.wf m = true ∧
      s16 (Memory.readWord m (wordAddr a)) = (n + 32768) % 65536 - 32768 ∧
      ∀ b, b ≠ byteAddr a → b ≠ byteAddr a + 1 → Memory.readByte m b = Memory.readByte s.mem b

/-- Where RDI traps or waits, and what it has done by then (R91). That a Bad answer, or an integer outside the
32-bit range, is taken is the model's choice (DESIGN CHOICE, log entry 13). -/
def Obligations.RdiTrapsAndWaits : Prop :=
  ∀ (s : State) (a : Byte),
    (99 < wordAddr a → exec (.rdi a) s = .next { s with run := .faulted (.operandOutOfRange s.ip (wordAddr a)) }) ∧
    (wordAddr a ≤ 99 →
      (s.input[s.inputPos]? = none → exec (.rdi a) s = .next { s with hold := true }) ∧
      (∀ ans, s.input[s.inputPos]? = some ans →
        ((ans.asInt = .bad ∨ ∃ n, ans.asInt = .int n ∧ (n < -2 ^ 31 ∨ 2 ^ 31 - 1 < n)) →
          exec (.rdi a) s =
            .next { s with inputPos := s.inputPos + 1, hold := false, run := .faulted (.inputError s.ip) }) ∧
        (∀ n, ans.asInt = .int n → -2 ^ 31 ≤ n → n ≤ 2 ^ 31 - 1 → s.storeDraw = some 0 →
          exec (.rdi a) s =
            .next { s with inputPos := s.inputPos + 1, hold := false, run := .faulted (.storeFault s.ip) })))

/-- R92. -/
def Obligations.RdiNeverReadsItsDestination : Prop :=
  ∀ (s : State) (a : Byte) (ans : Answer) (n : Int),
    Memory.wf s.mem = true → wordAddr a ≤ 99 → s.input[s.inputPos]? = some ans → ans.asInt = .int n →
    -2 ^ 31 ≤ n → n ≤ 2 ^ 31 - 1 →
    (drawAllows 1 s.storeDraw = true →
      (∀ old, exec (.rdi a) { s with mem := Memory.writeWord s.mem (wordAddr a) old } = exec (.rdi a) s) ∧
      ∃ t, exec (.rdi a) s = .next t ∧ Memory.readWord t.mem (wordAddr a) = wrap16 n ∧ t.inputPos = s.inputPos + 1) ∧
    (s.storeDraw = some 0 →
      ∃ t, exec (.rdi a) s = .next t ∧ t.run = .faulted (.storeFault s.ip) ∧ t.inputPos = s.inputPos + 1)

/-- RDS stores the line's bytes and one zero byte, and changes nothing else but the input position (R93). -/
def Obligations.RdsStoresTheLine : Prop :=
  ∀ (s : State) (a : Byte) (ans : Answer) (l : List Byte),
    Memory.wf s.mem = true → blockFits s.cfg a = true → s.input[s.inputPos]? = some ans → ans.asLine = .line l →
    l.length + 1 ≤ s.cfg.strBlock → drawAllows (l.length + 1) s.storeDraw = true →
    ∃ m, exec (.rds a) s =
        .next { s with mem := m, inputPos := s.inputPos + 1, hold := false,
                       storeDraw := drawAfter (l.length + 1) s.storeDraw } ∧
      Memory.wf m = true ∧
      (∀ (i : Nat) (h : i < l.length), Memory.readByte m (byteAddr a + i) = l[i]) ∧
      Memory.readByte m (byteAddr a + l.length) = 0 ∧
      ∀ b, b < byteAddr a ∨ byteAddr a + l.length < b → Memory.readByte m b = Memory.readByte s.mem b

/-- Where RDS traps or waits, and what it has done by then: only a store failure leaves bytes written (R93, R94, R113).
That an Eof answer is taken is the model's choice (log entry 13). -/
def Obligations.RdsTrapsAndWaits : Prop :=
  ∀ (s : State) (a : Byte),
    (200 < byteAddr a + s.cfg.strBlock →
      exec (.rds a) s = .next { s with run := .faulted (.operandOutOfRange s.ip (wordAddr a)) }) ∧
    (byteAddr a + s.cfg.strBlock ≤ 200 →
      (s.input[s.inputPos]? = none → exec (.rds a) s = .next { s with hold := true }) ∧
      (∀ ans, s.input[s.inputPos]? = some ans →
        (ans.asLine = .eof →
          exec (.rds a) s =
            .next { s with inputPos := s.inputPos + 1, hold := false, run := .faulted (.inputError s.ip) }) ∧
        (∀ l, ans.asLine = .line l →
          (s.cfg.strBlock < l.length + 1 →
            exec (.rds a) s =
              .next { s with inputPos := s.inputPos + 1, hold := false,
                             run := .faulted (.inputTooLong s.ip l.length) }) ∧
          (∀ k, l.length + 1 ≤ s.cfg.strBlock → s.storeDraw = some k → k ≤ l.length → Memory.wf s.mem = true →
            ∃ m, exec (.rds a) s =
                .next { s with mem := m, inputPos := s.inputPos + 1, hold := false, storeDraw := some 0,
                               run := .faulted (.storeFault s.ip) } ∧
              Memory.wf m = true ∧
              (∀ (i : Nat) (h : i < l.length), i < k → Memory.readByte m (byteAddr a + i) = l[i]) ∧
              ∀ b, b < byteAddr a ∨ byteAddr a + k ≤ b → Memory.readByte m b = Memory.readByte s.mem b))))

/-- R95. -/
def Obligations.PrtiEmitsTheWord : Prop :=
  ∀ (s : State) (a : Byte),
    encode s.cfg.opc (.prti a) = packWord s.cfg.opc.prti a ∧ (encode Opc.default (.prti a)).toNat = 0x0C * 256 + a.toNat ∧
    (wordAddr a ≤ 99 → drawAllows 1 s.storeDraw = true →
      exec (.prti a) s =
        .next { s with output := s.output ++ [.int (s16 (Memory.readWord s.mem (wordAddr a)))],
                       storeDraw := drawAfter 1 s.storeDraw }) ∧
    (99 < wordAddr a → exec (.prti a) s = .next { s with run := .faulted (.operandOutOfRange s.ip (wordAddr a)) }) ∧
    (wordAddr a ≤ 99 → s.storeDraw = some 0 → exec (.prti a) s = .next { s with run := .faulted (.storeFault s.ip) })

/-- PRTS emits the block's bytes before its first zero byte, or all S of them, and changes nothing else (R96). -/
def Obligations.PrtsEmitsTheBlock : Prop :=
  ∀ (s : State) (a : Byte), blockFits s.cfg a = true → drawAllows s.cfg.strBlock s.storeDraw = true →
    ∃ bytes : List Byte, exec (.prts a) s =
        .next { s with output := s.output ++ [.str bytes], storeDraw := drawAfter s.cfg.strBlock s.storeDraw } ∧
      bytes.length ≤ s.cfg.strBlock ∧
      (∀ (i : Nat) (h : i < bytes.length), bytes[i] = Memory.readByte s.mem (byteAddr a + i) ∧ bytes[i] ≠ 0) ∧
      (bytes.length < s.cfg.strBlock → Memory.readByte s.mem (byteAddr a + bytes.length) = 0)

/-- Where PRTS traps, with no output (R96). -/
def Obligations.PrtsTraps : Prop :=
  ∀ (s : State) (a : Byte),
    (200 < byteAddr a + s.cfg.strBlock →
      exec (.prts a) s = .next { s with run := .faulted (.operandOutOfRange s.ip (wordAddr a)) }) ∧
    (∀ k, byteAddr a + s.cfg.strBlock ≤ 200 → s.storeDraw = some k → k < s.cfg.strBlock →
      exec (.prts a) s = .next { s with storeDraw := some 0, run := .faulted (.storeFault s.ip) })

/-- PRTS executed right after an RDS of the same block prints the line, up to its first zero byte (R97, for no instruction between
the two). -/
def Obligations.PrtsPrintsWhatRdsRead : Prop :=
  ∀ (s : State) (a : Byte) (ans : Answer) (l : List Byte),
    Memory.wf s.mem = true → blockFits s.cfg a = true → s.input[s.inputPos]? = some ans → ans.asLine = .line l →
    l.length + 1 ≤ s.cfg.strBlock → drawAllows (l.length + 1 + s.cfg.strBlock) s.storeDraw = true →
    ∃ t u, exec (.rds a) s = .next t ∧ exec (.prts a) t = .next u ∧
      u.output = s.output ++ [.str (l.takeWhile (· ≠ 0))] ∧
      ((∀ c ∈ l, c ≠ 0) → u.output = s.output ++ [.str l]) ∧ u.mem = t.mem

/-- R98. -/
def Obligations.IoLeavesRegistersAndAdvances : Prop :=
  ∀ (s : State) (i : Instr), i.mnemonic ∈ [Mnemonic.rdi, .rds, .prti, .prts] →
    (∀ t, exec i s = .next t → t.acc = s.acc ∧ t.ir = s.ir ∧ t.ip = s.ip) ∧
    (∀ t, s.willRun i → step s = .next t → t.acc = s.acc ∧ t.ir = s.wordAtIp ∧
      (t.run = .running → t.hold = false → t.ip = s.ip + 1) ∧
      (t.run ≠ .running ∨ t.hold = true → t.ip = s.ip))

/-! ### Branches -/

/-- R100: B, its step, and B to its own address, which never ends and emits nothing. -/
def Obligations.BBranchesAlways : Prop :=
  ∀ (s : State) (a : Byte),
    encode s.cfg.opc (.b a) = packWord s.cfg.opc.b a ∧
    exec (.b a) s = .next { s with ip := BitVec.ofNat 16 a.toNat - 1 } ∧
    (s.willRun (.b a) → step s = .next { s.afterFetch with ip := BitVec.ofNat 16 a.toNat }) ∧
    (s.willRun (.b a) → s.storeDraw = none → s.ip.toNat = a.toNat →
      ∀ k, Sys2Proof.core.run (k + 1) s = .next s.afterFetch)

/-- R101. -/
def Obligations.BnBranchesIfNegative : Prop :=
  ∀ (s : State) (a : Byte),
    encode s.cfg.opc (.bn a) = packWord s.cfg.opc.bn a ∧
    (s16 s.acc < 0 → exec (.bn a) s = .next { s with ip := BitVec.ofNat 16 a.toNat - 1 }) ∧
    (0 ≤ s16 s.acc → exec (.bn a) s = .next s) ∧
    (s.willRun (.bn a) →
      (s16 s.acc < 0 → step s = .next { s.afterFetch with ip := BitVec.ofNat 16 a.toNat }) ∧
      (0 ≤ s16 s.acc → step s = .next { s.afterFetch with ip := s.ip + 1 }))

/-- R102. -/
def Obligations.BzBranchesIfZero : Prop :=
  ∀ (s : State) (a : Byte),
    encode s.cfg.opc (.bz a) = packWord s.cfg.opc.bz a ∧
    (s.acc = 0 → exec (.bz a) s = .next { s with ip := BitVec.ofNat 16 a.toNat - 1 }) ∧
    (s.acc ≠ 0 → exec (.bz a) s = .next s) ∧
    (s.willRun (.bz a) →
      (s.acc = 0 → step s = .next { s.afterFetch with ip := BitVec.ofNat 16 a.toNat }) ∧
      (s.acc ≠ 0 → step s = .next { s.afterFetch with ip := s.ip + 1 }))

/-- R99: a taken branch writes a - 1 modulo 2^16, and the next fetch is at a, for every a in 0..255. -/
def Obligations.TakenBranchReachesItsOperand : Prop :=
  ∀ (s : State) (i : Instr) (a : Byte), s.takesBranch i a →
    exec i s = .next { s with ip := BitVec.ofNat 16 ((a.toNat + 65535) % 65536) } ∧
    (s.willRun i → ∃ t, step s = .next t ∧ t.ip.toNat = a.toNat)

/-- R103. -/
def Obligations.BranchOutsideFaultsAtNextFetch : Prop :=
  ∀ (s : State) (i : Instr) (a : Byte), s.takesBranch i a → s.willRun i → 100 ≤ a.toNat →
    ∃ t, step s = .next t ∧ t.run = .running ∧ t.ip.toNat = a.toNat ∧
      step t = .next { t with run := .faulted (.fetchOutOfRange t.ip) }

/-! ### Halt -/

/-- R105: END, its step, its ignored operand, and the loader leaving its Word alone. -/
def Obligations.EndReportsAndHalts : Prop :=
  ∀ (s : State) (x : Byte),
    encode s.cfg.opc (.halt x) = packWord s.cfg.opc.halt x ∧ (encode Opc.default (.halt x)).toNat = 0x2B * 256 + x.toNat ∧
    exec (.halt x) s = .next { s with output := s.output ++ [.halt s.ip s.ir s.acc], run := .halted } ∧
    (s.willRun (.halt x) →
      step s = .next { s.afterFetch with output := s.output ++ [.halt s.ip s.wordAtIp s.acc], run := .halted }) ∧
    (s.cfg.opc.distinct = true → ∀ base, reloc s.cfg.opc base (encode s.cfg.opc (.halt x)) = some (encode s.cfg.opc (.halt x)))

/-- A run whose first Word is END ends after one fetch, with IP still ENTRY (R89). The form of the stop after it is the model's
(DEDUCED, log entry 9). -/
def Obligations.FirstWordEndEndsTheRun : Prop :=
  ∀ (c : Config) (l : LaunchInput) (m : Memory) (s : State) (x : Byte), launch c l m = .ok s → s.willRun (.halt x) →
    ∃ t, step s = .next t ∧ t.run = .halted ∧ t.ip.toNat = l.entry ∧ t.mem = m ∧
      t.output = [.halt t.ip (Memory.readWord m l.entry) l.accInit] ∧ step t = .fault .halted

/-! ### Memory -/

/-- R40. -/
def Obligations.ByteAccessesTouchOneByte : Prop :=
  ∀ (s : State) (b : Nat) (v : Byte), Memory.wf s.mem = true →
    (b ≤ 199 → drawAllows 1 s.storeDraw = true →
      memReadByte b s =
        .ok (if b % 2 = 0 then operandOf (Memory.readWord s.mem (b / 2)) else opcodeOf (Memory.readWord s.mem (b / 2)))
          { s with storeDraw := drawAfter 1 s.storeDraw } ∧
      ∃ m, memWriteByte b v s = .ok () { s with mem := m, storeDraw := drawAfter 1 s.storeDraw } ∧
        Memory.readWord m (b / 2) =
          (if b % 2 = 0 then packWord (opcodeOf (Memory.readWord s.mem (b / 2))) v
           else packWord v (operandOf (Memory.readWord s.mem (b / 2)))) ∧
        ∀ c, c ≠ b / 2 → Memory.readWord m c = Memory.readWord s.mem c) ∧
    (199 < b →
      memReadByte b s = .stop { s with run := .faulted (.operandOutOfRange s.ip (b / 2)) } ∧
      memWriteByte b v s = .stop { s with run := .faulted (.operandOutOfRange s.ip (b / 2)) })

/-- The Word RDI writes is read by PRTS low byte first, and two bytes RDS writes are read as the Word high : low (R39, R41). -/
def Obligations.WordsAndBytesShareOneLayout : Prop :=
  ∀ (m : Memory) (a : Nat) (v : Word) (lo hi : Byte), Memory.wf m = true → a ≤ 99 →
    Memory.readBytes (Memory.writeWord m a v) (2 * a) 2 = [operandOf v, opcodeOf v] ∧
    Memory.readWord (Memory.writeBytes m (2 * a) [lo, hi]) a = packWord hi lo ∧
    (∀ c, c ≠ a → Memory.readWord (Memory.writeWord m a v) c = Memory.readWord m c)

/-- Memory and code are one: the Word an RDI writes into the next Word to be fetched is the Word the very next step fetches
(R50, R140). -/
def Obligations.WrittenWordIsFetchedNext : Prop :=
  ∀ (s : State) (a : Byte) (ans : Answer) (n : Int),
    s.willRun (.rdi a) → Memory.wf s.mem = true → wordAddr a ≤ 99 → wordAddr a = s.ip.toNat + 1 →
    s.input[s.inputPos]? = some ans → ans.asInt = .int n → fitsInt32 n = true → drawAllows 3 s.storeDraw = true →
    ∃ t, step s = .next t ∧ t.fetchable = true ∧ t.ip.toNat = wordAddr a ∧ t.wordAtIp = wrap16 n ∧
      ∀ u, step t = .next u → u.ir = wrap16 n

/-- A step changes memory only where its instruction stores: RDI its Word, RDS its block (R32, R91, R93, R129). -/
def Obligations.StepsWriteOnlyTheirDestination : Prop :=
  ∀ (s t : State) (b : Nat), Memory.wf s.mem = true → step s = .next t →
    Memory.readByte t.mem b ≠ Memory.readByte s.mem b →
    (∃ a, decode s.cfg.opc t.ir = .ok (.rdi a) ∧ (b = byteAddr a ∨ b = byteAddr a + 1)) ∨
    (∃ a, decode s.cfg.opc t.ir = .ok (.rds a) ∧ byteAddr a ≤ b ∧ b < byteAddr a + s.cfg.strBlock)

/-! ### Faults -/

/-- Fault entry records and keeps IP, keeps what R113 says no fault touches, and is terminal. Memory may change only by the bytes
RDS wrote before a store failure: as many as the draw let succeed, less the step's own fetch if it made one; the input position
never moves back. What each fault leaves of memory and input exactly is `FaultsKeepWhatWasDone`. -/
def Obligations.FaultsArePrecise : Prop :=
  ∀ (s t : State) (f : EngineFault), step s = .next t → t.run = .faulted f →
    f.ip = s.ip ∧ t.ip = s.ip ∧ t.acc = s.acc ∧ t.cfg = s.cfg ∧ t.output = s.output ∧ t.input = s.input ∧
    t.ir = (if s.hold = false ∧ s.ip.toNat ≤ 99 ∧ drawAllows 1 s.storeDraw = true then s.wordAtIp else s.ir) ∧
    s.inputPos ≤ t.inputPos ∧
    (t.mem = s.mem ∨
      ∃ a l k ans, f = .storeFault s.ip ∧ decode s.cfg.opc t.ir = .ok (.rds a) ∧ s.input[s.inputPos]? = some ans ∧
        ans.asLine = .line l ∧ k ≤ l.length ∧ s.storeDraw = some (if s.hold then k else k + 1) ∧
        t.mem = Memory.writeBytes s.mem (byteAddr a) (l.take k)) ∧
    step t = .fault (.faulted f)

/-- The fault of a step is the first check that fails, in the order of R115; a step without a failing check raises none, the
Word's dispatch being settled (DEDUCED, log entry 10). That a step that goes on after a hold has its fetch and its opcode behind it
is the model's reading of R86 and R88 (DEDUCED, log entry 7). -/
def Obligations.FirstFailingCheckIsReported : Prop :=
  (∀ s : State, s.run = .running → s.hold = false → dispatchSettled s.cfg.opc s.wordAtIp = true →
    ∃ t, step s = .next t ∧ t.run.faultCode = s.firstFault) ∧
  (∀ (s : State) (i : Instr), s.run = .running → s.hold = true → dispatchSettled s.cfg.opc s.ir = true →
    decode s.cfg.opc s.ir = .ok i → ∃ t, step s = .next t ∧ t.run.faultCode = s.firstExecFault i)

/-! ### The whole machine -/

/-- R23: the IP of a run is at most 256, and an IP of 100 or more faults at the next fetch. -/
def Obligations.IpStaysBelow257 : Prop :=
  ∀ (c : Config) (l : LaunchInput) (m : Memory) (s t : State), launch c l m = .ok s → Reaches s t →
    t.ip.toNat ≤ 256 ∧
    (100 ≤ t.ip.toNat → t.run = .running → t.hold = false →
      step t = .next { t with run := .faulted (.fetchOutOfRange t.ip) })

/-- R34: ACC never changes during a run, so every BN of it goes the same way, and so does every BZ. -/
def Obligations.ConditionalBranchesGoOneWay : Prop :=
  ∀ (c : Config) (l : LaunchInput) (m : Memory) (s t : State) (a : Byte), launch c l m = .ok s → Reaches s t →
    t.acc = l.accInit ∧
    (l.accInit = 0 →
      exec (.bz a) t = .next { t with ip := BitVec.ofNat 16 a.toNat - 1 } ∧ exec (.bn a) t = .next t) ∧
    (s16 l.accInit < 0 →
      exec (.bn a) t = .next { t with ip := BitVec.ofNat 16 a.toNat - 1 } ∧ exec (.bz a) t = .next t) ∧
    (0 < s16 l.accInit → exec (.bn a) t = .next t ∧ exec (.bz a) t = .next t)

/-- No step writes ACC, the parameters or the host's input (R7, R25, R90). -/
def Obligations.StepsKeepAccParametersAndInput : Prop :=
  ∀ s t : State, step s = .next t → t.acc = s.acc ∧ t.cfg = s.cfg ∧ t.input = s.input

/-- The host's ports only move forward: a step appends at most one event and takes at most one answer (R30, R90). -/
def Obligations.PortsOnlyMoveForward : Prop :=
  ∀ s t : State, step s = .next t →
    (t.output = s.output ∨ ∃ e, t.output = s.output ++ [e]) ∧ (t.inputPos = s.inputPos ∨ t.inputPos = s.inputPos + 1)

/-- Every step keeps the invariant. -/
def Obligations.StepKeepsTheInvariant : Prop :=
  ∀ s t : State, s.Inv → step s = .next t → t.Inv

/-- The machine right after reset meets the invariant. -/
def Obligations.ResetMeetsTheInvariant : Prop := State.reset.Inv

/-- A launch that is not refused starts from these values (R130); it is refused when ENTRY is above 99 (R132 (a)), and for nothing
else: that parameters outside R7's constraints are not refused is the model's choice (DESIGN CHOICE, log entry 14). -/
def Obligations.LaunchStartsTheRun : Prop :=
  ∀ (c : Config) (l : LaunchInput) (m : Memory),
    (launch c l m = .error .entryOutOfRange ↔ 99 < l.entry) ∧
    (l.entry ≤ 99 → ∃ s, launch c l m = .ok s ∧
      s.ip.toNat = l.entry ∧ s.ir = l.irInit ∧ s.acc = l.accInit ∧ s.run = .running ∧ s.mem = m ∧
      s.input = l.input ∧ s.inputPos = 0 ∧ s.output = [] ∧ s.cfg = c)

/-- Every launch of a well-formed machine on a canonical memory meets the invariant. -/
def Obligations.LaunchMeetsTheInvariant : Prop :=
  ∀ (c : Config) (l : LaunchInput) (m : Memory) (s : State), c.wf = true → Memory.wf m = true → launch c l m = .ok s → s.Inv

/-- The launch value of IR is unobservable (R33): it makes no difference to the first step. -/
def Obligations.LaunchIrIsUnobservable : Prop :=
  ∀ (c : Config) (l : LaunchInput) (m : Memory) (v : Word) (s s' : State),
    launch c l m = .ok s → launch c { l with irInit := v } m = .ok s' → drawAllows 1 l.storeDraw = true →
    step s = step s'

/-- Only BN, BZ and END read ACC (R25, R32): the other instructions do the same whatever it holds. -/
def Obligations.OnlyBnBzEndReadAcc : Prop :=
  ∀ (i : Instr) (s : State) (v : Word), i.mnemonic ∉ [Mnemonic.bn, .bz, .halt] →
    ∃ t, exec i s = .next t ∧ exec i { s with acc := v } = .next { t with acc := v }

/-! ### The loader -/

/-- R134. -/
def Obligations.LoadWritesTheRelocatedStream : Prop :=
  ∀ (opc : Opc) (base : Nat) (ws : List Word) (m m' : Memory), Memory.wf m = true → load opc base ws m = .ok m' →
    Memory.wf m' = true ∧
    (∀ (i : Nat) (h : i < ws.length), reloc opc base ws[i] = some (Memory.readWord m' (base + i))) ∧
    (∀ c, c < base ∨ base + ws.length ≤ c → Memory.readWord m' c = Memory.readWord m c)

/-- A load that does not fit is refused (R133); one that fits is refused if a relocation overflows (R136) and loaded otherwise
(R134). Two things are the model's choice (DESIGN CHOICE, log entry 15): that LoadOutOfRange is named when both refusals apply, and
that every other load is carried out, because a load draws no store failure. -/
def Obligations.LoadsThatDoNotFitAreRefused : Prop :=
  ∀ (opc : Opc) (base : Nat) (ws : List Word) (m : Memory),
    (load opc base ws m = .error .loadOutOfRange ↔ 99 < base ∨ 100 < base + ws.length) ∧
    (base ≤ 99 → base + ws.length ≤ 100 →
      ((∃ w ∈ ws, reloc opc base w = none) → load opc base ws m = .error .relocationOverflow) ∧
      ((∀ w ∈ ws, reloc opc base w ≠ none) → ∃ m', load opc base ws m = .ok m'))

/-- R135. -/
def Obligations.RelocationShiftsOperands : Prop :=
  ∀ (opc : Opc) (base : Nat) (w : Word),
    (opcodeOf w ∈ [opc.rdi, opc.rds, opc.prti, opc.prts, opc.b, opc.bn, opc.bz] →
      ((operandOf w).toNat + base ≤ 255 →
        ∃ v, reloc opc base w = some v ∧ opcodeOf v = opcodeOf w ∧ (operandOf v).toNat = (operandOf w).toNat + base) ∧
      (255 < (operandOf w).toNat + base → reloc opc base w = none)) ∧
    (opcodeOf w ∉ [opc.rdi, opc.rds, opc.prti, opc.prts, opc.b, opc.bn, opc.bz] → reloc opc base w = some w) ∧
    (opc.distinct = true → opcodeOf w = opc.halt → reloc opc base w = some w)

/-- Which data Words a load alters under the default OPC, and that a load at 0 alters none (R135, R137). The upper range is R137's
0x2800..0x2AFF; the decimal end the rule prints beside it, 10991, is not 0x2AFF (DEDUCED, log entry 23). -/
def Obligations.LookAlikeDataIsRelocated : Prop :=
  (∀ (base : Nat) (w : Word), 1 ≤ base → base ≤ 99 → (operandOf w).toNat + base ≤ 255 →
    (reloc Opc.default base w ≠ some w ↔
      (0x0A00 ≤ w.toNat ∧ w.toNat ≤ 0x0DFF) ∨ (0x2800 ≤ w.toNat ∧ w.toNat ≤ 0x2AFF)) ∧
    (reloc Opc.default base w ≠ some w ↔ (opcodeOf w).toNat ∈ [10, 11, 12, 13, 40, 41, 42]) ∧
    (reloc Opc.default base w ≠ some w → ∃ v, reloc Opc.default base w = some v ∧ v.toNat = w.toNat + base)) ∧
  (∀ (opc : Opc) (w : Word), reloc opc 0 w = some w)

/-! ### The assembler -/

/-- A Word written as its pattern in hexadecimal is a data word line that emits that very Word (R66 to R68, R72). -/
def Obligations.HexDataWordEmitsItsPattern : Prop :=
  ∀ (opc : Opc) (table : LabelTable) (w : Word), encodeLexed opc table (lexLine (hexWordText w)) = .ok [w]

/-- R73. -/
def Obligations.StringsPackTwoCharactersAWord : Prop :=
  ∀ p : Text, (packString p).length = (p.length + 1) / 2 ∧
    (∀ (i : Nat) (h : i < (packString p).length),
      (packString p)[i] = packWord (p.getD (2 * i + 1) 0) (p.getD (2 * i) 0) ∧
      (s16 (packString p)[i] < 0 ↔ 128 ≤ (p.getD (2 * i + 1) 0).toNat)) ∧
    ∀ (opc : Opc) (table : LabelTable), encodeLine opc table (.stringLiteral p) = .ok (packString p)

/-- An instruction line emits its Word, whose operand is the literal, the label's address or 0 (R69 to R71). -/
def Obligations.InstructionLinesEmitTheirWord : Prop :=
  ∀ (opc : Opc) (table : LabelTable) (m : Mnemonic),
    encodeLine opc table (.instrNoOperand (mnemonicText m)) = .ok [encode opc (m.instr 0)] ∧
    (∀ l v, literalValue l = some v →
      encodeLine opc table (.instrWithLiteral (mnemonicText m) l) =
        if v ≤ 255 then .ok [encode opc (m.instr (BitVec.ofNat 8 v))] else .error .invalidInstruction) ∧
    (∀ r, resolveLabel table r = none →
      encodeLine opc table (.instrWithReference (mnemonicText m) r) = .error .invalidInstruction) ∧
    (∀ r v, resolveLabel table r = some v → v ≤ 255 →
      encodeLine opc table (.instrWithReference (mnemonicText m) r) = .ok [encode opc (m.instr (BitVec.ofNat 8 v))])

/-- An assembly without errors emits as many Words as its lines contribute (R66, R76). -/
def Obligations.CleanAssemblyCountsItsWords : Prop :=
  ∀ (opc : Opc) (isComment : Text → Bool) (src : Text) (r : Assembly),
    assemble opc isComment src = .ok r → r.badProgram = false →
    r.words.length = ((lexSource isComment src).map (fun l => wordsEmitted (classify l))).sum

/-- In a program without errors, a label on a line that is not label-only is the index, in the output, of the first Word its line
emits, and what stands there is what the line emits (R74). For an empty string, which emits no Word, it is the index of the next
Word: the model's choice (log entry 27). -/
def Obligations.LabelIsTheIndexOfItsWord : Prop :=
  ∀ (opc : Opc) (before after : List LexedLine) (l : LexedLine) (n : Text),
    l.label = some n → classify l ≠ .labelOnly →
    (assembleLines opc (before ++ l :: after)).badProgram = false →
    ∃ i, (n, i) ∈ (assembleLines opc (before ++ l :: after)).table ∧
      i = (before.map (fun b => wordsEmitted (classify b))).sum ∧
      ∃ ws, encodeLexed opc (assembleLines opc (before ++ l :: after)).table l = .ok ws ∧
        ((assembleLines opc (before ++ l :: after)).words.drop i).take ws.length = ws

/-- The first definition of a name in the source is the one it resolves to (R75), whether its label stands on a line of its own
Words or is saved for a later line; and a source that defines an admitted name twice is refused (93_implementation_defined.md row
3). That the order is that of the defining lines, and not of the binding, is the model's reading (log entry 28), and so are the
saved label's passing over blank lines (log entry 21) and its address at an empty string (log entry 27). The first two clauses also
cover programs with errors: there a line with an error counts the Words of its tag (DESIGN CHOICE, log entry 19), and a name that is
not admitted is entered and resolves (DESIGN CHOICE, log entry 30). -/
def Obligations.FirstDefinitionWins : Prop :=
  (∀ (opc : Opc) (before after : List LexedLine) (l : LexedLine) (n : Text),
    l.label = some n → classify l ≠ .labelOnly → (∀ b ∈ before, b.label ≠ some n) →
    resolveLabel (assembleLines opc (before ++ l :: after)).table n =
      some (before.map (fun b => wordsEmitted (classify b))).sum) ∧
  (∀ (opc : Opc) (before between after : List LexedLine) (l u : LexedLine) (n : Text),
    l.label = some n → classify l = .labelOnly → (∀ b ∈ before, b.label ≠ some n) →
    (∀ b ∈ between, b.label.isSome = true ∨ classify b = .blank) → u.label = none → classify u ≠ .blank →
    resolveLabel (assembleLines opc (before ++ l :: (between ++ u :: after))).table n =
      some ((before ++ between).map (fun b => wordsEmitted (classify b))).sum) ∧
  (∀ (opc : Opc) (isComment : Text → Bool) (src : Text) (before between after : List LexedLine) (l u : LexedLine) (n : Text),
    lexSource isComment src = before ++ l :: (between ++ u :: after) → l.label = some n → u.label = some n →
    labelNameOk n = true → ∃ e, assemble opc isComment src = .error e)

/-- What a faulting step has done by then stays done, and no more (R113): which answers are taken, and which bytes RDS has
written when the store fails partway through its writes. That an answer that raises InputError is taken (Bad, Eof, or an
integer outside the 32-bit range) is the model's choice (DESIGN CHOICE, log entry 13), and so is the form of the draw (log entry
8). -/
def Obligations.FaultsKeepWhatWasDone : Prop :=
  ∀ (s t : State) (f : EngineFault), step s = .next t → t.run = .faulted f →
    (f.code ≤ 3 → t.mem = s.mem ∧ t.inputPos = s.inputPos) ∧
    (f.code = 4 ∨ f.code = 5 → t.mem = s.mem ∧ t.inputPos = s.inputPos + 1) ∧
    (f.code = 6 → s.hold = false → s.storeDraw = some 0 → t.mem = s.mem ∧ t.inputPos = s.inputPos) ∧
    (f.code = 6 → s.hold = true ∨ s.storeDraw ≠ some 0 →
      (∃ a, decode s.cfg.opc t.ir = .ok (.rdi a) ∧ t.mem = s.mem ∧ t.inputPos = s.inputPos + 1) ∨
      (∃ a, (decode s.cfg.opc t.ir = .ok (.prti a) ∨ decode s.cfg.opc t.ir = .ok (.prts a)) ∧
        t.mem = s.mem ∧ t.inputPos = s.inputPos) ∨
      (∃ a l k ans, decode s.cfg.opc t.ir = .ok (.rds a) ∧ s.input[s.inputPos]? = some ans ∧ ans.asLine = .line l ∧
        k ≤ l.length ∧ s.storeDraw = some (if s.hold then k else k + 1) ∧
        t.mem = Memory.writeBytes s.mem (byteAddr a) (l.take k) ∧ t.inputPos = s.inputPos + 1))
end

