-- ==== Sys2Proof/Laws/Memory.lean ====
section
/-! SUPPORT. The laws of the Memory Store: read over write, the canonical form and its preservation, and that canonical
memories that read the same are the same (R37, R39, R40, R46). -/

namespace Sys2Proof.Machine

/-! ### Words and their bytes -/

theorem packWord_toNat (hi lo : Byte) : (packWord hi lo).toNat = hi.toNat * 256 + lo.toNat := by
  have h : (packWord hi lo).toNat = hi.toNat <<< 8 ||| lo.toNat := BitVec.toNat_append hi lo
  rw [h, ← Nat.shiftLeft_add_eq_or_of_lt lo.isLt, Nat.shiftLeft_eq]

theorem opcodeOf_toNat (w : Word) : (opcodeOf w).toNat = w.toNat / 256 := by
  have h : (opcodeOf w).toNat = (w.toNat >>> 8) % 2 ^ 8 := BitVec.extractLsb'_toNat ..
  rw [h, Nat.shiftRight_eq_div_pow]
  have := w.isLt
  omega

theorem operandOf_toNat (w : Word) : (operandOf w).toNat = w.toNat % 256 := by
  have h : (operandOf w).toNat = (w.toNat >>> 0) % 2 ^ 8 := BitVec.extractLsb'_toNat ..
  rw [h]; rfl

@[simp] theorem opcodeOf_packWord (hi lo : Byte) : opcodeOf (packWord hi lo) = hi := by
  apply BitVec.eq_of_toNat_eq
  rw [opcodeOf_toNat, packWord_toNat]
  have := lo.isLt
  omega

@[simp] theorem operandOf_packWord (hi lo : Byte) : operandOf (packWord hi lo) = lo := by
  apply BitVec.eq_of_toNat_eq
  rw [operandOf_toNat, packWord_toNat]
  have := lo.isLt
  omega

@[simp] theorem packWord_opcodeOf_operandOf (w : Word) : packWord (opcodeOf w) (operandOf w) = w := by
  apply BitVec.eq_of_toNat_eq
  rw [packWord_toNat, opcodeOf_toNat, operandOf_toNat]
  omega

/-! ### One byte -/

@[simp] theorem Memory.readByte_nil (b : Nat) : Memory.readByte [] b = 0 := rfl

theorem Memory.canonicalFrom_cons {lo : Option Nat} {k : Nat} {v : Byte} {m : Memory} :
    Memory.canonicalFrom lo ((k, v) :: m) = true ↔
      (∀ l, lo = some l → l < k) ∧ k < 200 ∧ v ≠ 0 ∧ Memory.canonicalFrom (some k) m = true := by
  cases lo <;> simp [Memory.canonicalFrom, and_assoc]

theorem Memory.canonicalFrom_weaken {l : Nat} {lo : Option Nat} {m : Memory}
    (h : Memory.canonicalFrom (some l) m = true) (hl : ∀ k, lo = some k → k ≤ l) :
    Memory.canonicalFrom lo m = true := by
  cases m with
  | nil => simp [Memory.canonicalFrom]
  | cons e m =>
    obtain ⟨k, v⟩ := e
    rw [Memory.canonicalFrom_cons] at h ⊢
    exact ⟨fun x hx => lt_of_le_of_lt (hl x hx) (h.1 l rfl), h.2⟩

theorem Memory.readByte_below {l b : Nat} {m : Memory}
    (h : Memory.canonicalFrom (some l) m = true) (hb : b ≤ l) : Memory.readByte m b = 0 := by
  induction m generalizing l with
  | nil => rfl
  | cons e m ih =>
    obtain ⟨k, v⟩ := e
    rw [Memory.canonicalFrom_cons] at h
    have hk := h.1 l rfl
    rw [Memory.readByte, if_neg (by omega)]
    exact ih h.2.2.2 (by omega)

theorem Memory.readByte_writeByte_of_canonical {lo : Option Nat} {m : Memory}
    (h : Memory.canonicalFrom lo m = true) (b : Nat) (v : Byte) (c : Nat) :
    Memory.readByte (Memory.writeByte m b v) c = if c = b then v else Memory.readByte m c := by
  induction m generalizing lo with
  | nil =>
    unfold Memory.writeByte
    by_cases hv : v = 0
    · rw [if_pos hv, hv]; simp
    · rw [if_neg hv]; simp only [Memory.readByte, eq_comm]
  | cons e m ih =>
    obtain ⟨k, w⟩ := e
    rw [Memory.canonicalFrom_cons] at h
    have ih' := ih h.2.2.2
    unfold Memory.writeByte
    by_cases h1 : k < b
    · rw [if_pos h1]
      simp only [Memory.readByte, ih']
      by_cases hk : k = c
      · rw [if_pos hk, if_neg (by omega), if_pos hk]
      · rw [if_neg hk, if_neg hk]
    · rw [if_neg h1]
      by_cases h2 : k = b
      · rw [if_pos h2]
        by_cases hv : v = 0
        · rw [if_pos hv]
          by_cases hc : c = b
          · rw [if_pos hc, hc, hv]; exact Memory.readByte_below h.2.2.2 (by omega)
          · rw [if_neg hc, Memory.readByte, if_neg (by omega)]
        · rw [if_neg hv]
          by_cases hc : c = b
          · simp [Memory.readByte, hc]
          · rw [if_neg hc, Memory.readByte, Memory.readByte, if_neg (by omega), if_neg (by omega)]
      · rw [if_neg h2]
        have h0 : Memory.readByte ((k, w) :: m) b = 0 := by
          rw [Memory.readByte, if_neg h2]
          exact Memory.readByte_below h.2.2.2 (by omega)
        by_cases hv : v = 0
        · rw [if_pos hv]
          by_cases hc : c = b
          · rw [if_pos hc, hc, hv, h0]
          · rw [if_neg hc]
        · rw [if_neg hv]
          by_cases hc : c = b
          · simp [Memory.readByte, hc]
          · rw [if_neg hc, Memory.readByte, if_neg (by omega)]

theorem Memory.readByte_writeByte {m : Memory} (h : Memory.wf m = true) (b : Nat) (v : Byte) (c : Nat) :
    Memory.readByte (Memory.writeByte m b v) c = if c = b then v else Memory.readByte m c :=
  Memory.readByte_writeByte_of_canonical h b v c

theorem Memory.canonicalFrom_writeByte {lo : Option Nat} {m : Memory}
    (h : Memory.canonicalFrom lo m = true) {b : Nat} (hb : b < 200) (hlo : ∀ l, lo = some l → l < b) (v : Byte) :
    Memory.canonicalFrom lo (Memory.writeByte m b v) = true := by
  induction m generalizing lo with
  | nil =>
    unfold Memory.writeByte
    by_cases hv : v = 0
    · simp [hv, Memory.canonicalFrom]
    · rw [if_neg hv, Memory.canonicalFrom_cons]
      exact ⟨hlo, hb, hv, rfl⟩
  | cons e m ih =>
    obtain ⟨k, w⟩ := e
    have hc := h
    rw [Memory.canonicalFrom_cons] at h
    obtain ⟨h1, h2, h3, h4⟩ := h
    unfold Memory.writeByte
    by_cases hkb : k < b
    · rw [if_pos hkb, Memory.canonicalFrom_cons]
      exact ⟨h1, h2, h3, ih h4 (fun l hl => by cases hl; exact hkb)⟩
    · rw [if_neg hkb]
      by_cases he : k = b
      · rw [if_pos he]
        by_cases hv : v = 0
        · rw [if_pos hv]
          exact Memory.canonicalFrom_weaken h4 (fun x hx => le_of_lt (h1 x hx))
        · rw [if_neg hv, Memory.canonicalFrom_cons]
          exact ⟨hlo, hb, hv, he ▸ h4⟩
      · rw [if_neg he]
        by_cases hv : v = 0
        · rw [if_pos hv]; exact hc
        · rw [if_neg hv, Memory.canonicalFrom_cons]
          refine ⟨hlo, hb, hv, ?_⟩
          rw [Memory.canonicalFrom_cons]
          exact ⟨fun l hl => by cases hl; omega, h2, h3, h4⟩

@[simp] theorem Memory.wf_nil : Memory.wf [] = true := rfl

theorem Memory.wf_writeByte {m : Memory} (h : Memory.wf m = true) {b : Nat} (hb : b < 200) (v : Byte) :
    Memory.wf (Memory.writeByte m b v) = true :=
  Memory.canonicalFrom_writeByte h hb (fun _ hl => nomatch hl) v

theorem Memory.readByte_outside_of_canonical {lo : Option Nat} {m : Memory}
    (h : Memory.canonicalFrom lo m = true) {b : Nat} (hb : 200 ≤ b) : Memory.readByte m b = 0 := by
  induction m generalizing lo with
  | nil => rfl
  | cons e m ih =>
    obtain ⟨k, w⟩ := e
    rw [Memory.canonicalFrom_cons] at h
    rw [Memory.readByte, if_neg (by omega)]
    exact ih h.2.2.2

theorem Memory.readByte_outside {m : Memory} (h : Memory.wf m = true) {b : Nat} (hb : 200 ≤ b) :
    Memory.readByte m b = 0 :=
  Memory.readByte_outside_of_canonical h hb

theorem Memory.ext_of_canonical {lo lo' : Option Nat} {m m' : Memory}
    (h : Memory.canonicalFrom lo m = true) (h' : Memory.canonicalFrom lo' m' = true)
    (hr : ∀ b, Memory.readByte m b = Memory.readByte m' b) : m = m' := by
  induction m generalizing lo lo' m' with
  | nil =>
    cases m' with
    | nil => rfl
    | cons e m' =>
      obtain ⟨k, w⟩ := e
      rw [Memory.canonicalFrom_cons] at h'
      exact absurd (by simpa [Memory.readByte] using (hr k).symm) h'.2.2.1
  | cons e m ih =>
    obtain ⟨k, w⟩ := e
    rw [Memory.canonicalFrom_cons] at h
    obtain ⟨-, -, hw, hm⟩ := h
    cases m' with
    | nil => exact absurd (by simpa [Memory.readByte] using hr k) hw
    | cons e' m' =>
      obtain ⟨k', w'⟩ := e'
      rw [Memory.canonicalFrom_cons] at h'
      obtain ⟨-, -, hw', hm'⟩ := h'
      have hkk : k = k' := by
        rcases Nat.lt_trichotomy k k' with hlt | heq | hgt
        · have := hr k
          rw [Memory.readByte, if_pos rfl, Memory.readByte, if_neg (by omega),
            Memory.readByte_below hm' (by omega)] at this
          exact absurd this hw
        · exact heq
        · have := hr k'
          rw [Memory.readByte, if_neg (by omega), Memory.readByte_below hm (by omega),
            Memory.readByte, if_pos rfl] at this
          exact absurd this.symm hw'
      subst hkk
      have hww : w = w' := by simpa [Memory.readByte] using hr k
      subst hww
      rw [ih hm hm']
      intro b
      by_cases hb : b = k
      · rw [hb, Memory.readByte_below hm (le_refl _), Memory.readByte_below hm' (le_refl _)]
      · have := hr b
        rwa [Memory.readByte, if_neg (fun e => hb e.symm), Memory.readByte, if_neg (fun e => hb e.symm)] at this

/-- Equal memories are equal data. -/
theorem Memory.ext_of_wf {m m' : Memory} (h : Memory.wf m = true) (h' : Memory.wf m' = true)
    (hr : ∀ b, Memory.readByte m b = Memory.readByte m' b) : m = m' :=
  Memory.ext_of_canonical h h' hr

/-! ### One Word -/

theorem Memory.readByte_writeWord {m : Memory} (h : Memory.wf m = true) {a : Nat} (ha : a ≤ 99) (v : Word) (c : Nat) :
    Memory.readByte (Memory.writeWord m a v) c =
      if c = 2 * a then operandOf v else if c = 2 * a + 1 then opcodeOf v else Memory.readByte m c := by
  unfold Memory.writeWord
  rw [Memory.readByte_writeByte (Memory.wf_writeByte h (by omega) _), Memory.readByte_writeByte h]
  by_cases h1 : c = 2 * a
  · rw [if_neg (by omega), if_pos h1, if_pos h1]
  · rw [if_neg h1, if_neg h1]

theorem Memory.wf_writeWord {m : Memory} (h : Memory.wf m = true) {a : Nat} (ha : a ≤ 99) (v : Word) :
    Memory.wf (Memory.writeWord m a v) = true :=
  Memory.wf_writeByte (Memory.wf_writeByte h (by omega) _) (by omega) _

theorem Memory.readWord_writeWord_same {m : Memory} (h : Memory.wf m = true) {a : Nat} (ha : a ≤ 99) (v : Word) :
    Memory.readWord (Memory.writeWord m a v) a = v := by
  unfold Memory.readWord
  rw [Memory.readByte_writeWord h ha, Memory.readByte_writeWord h ha, if_neg (by omega), if_pos rfl, if_pos rfl]
  exact packWord_opcodeOf_operandOf v

theorem Memory.readWord_writeWord_other {m : Memory} (h : Memory.wf m = true) {a c : Nat} (ha : a ≤ 99) (hc : c ≠ a)
    (v : Word) : Memory.readWord (Memory.writeWord m a v) c = Memory.readWord m c := by
  unfold Memory.readWord
  rw [Memory.readByte_writeWord h ha, Memory.readByte_writeWord h ha, if_neg (by omega), if_neg (by omega),
    if_neg (by omega), if_neg (by omega)]

theorem Memory.readByte_even (m : Memory) (a : Nat) : Memory.readByte m (2 * a) = operandOf (Memory.readWord m a) := by
  simp [Memory.readWord]

theorem Memory.readByte_odd (m : Memory) (a : Nat) : Memory.readByte m (2 * a + 1) = opcodeOf (Memory.readWord m a) := by
  simp [Memory.readWord]

/-! ### Runs of bytes -/

theorem Memory.wf_writeBytes {m : Memory} (h : Memory.wf m = true) {b : Nat} {vs : List Byte}
    (hb : b + vs.length ≤ 200) : Memory.wf (Memory.writeBytes m b vs) = true := by
  induction vs generalizing m b with
  | nil => exact h
  | cons v vs ih =>
    rw [List.length_cons] at hb
    exact ih (Memory.wf_writeByte h (by omega) v) (by omega)

theorem Memory.readByte_writeBytes {m : Memory} (h : Memory.wf m = true) {b : Nat} {vs : List Byte}
    (hb : b + vs.length ≤ 200) (c : Nat) :
    Memory.readByte (Memory.writeBytes m b vs) c =
      if h : b ≤ c ∧ c - b < vs.length then vs[c - b]'h.2 else Memory.readByte m c := by
  induction vs generalizing m b with
  | nil => simp [Memory.writeBytes]
  | cons v vs ih =>
    rw [List.length_cons] at hb
    unfold Memory.writeBytes
    rw [ih (Memory.wf_writeByte h (by omega) v) (by omega), Memory.readByte_writeByte h]
    by_cases h1 : c = b
    · subst h1
      rw [dif_neg (by omega), if_pos rfl, dif_pos ⟨le_refl _, by simp⟩]
      simp
    · rw [if_neg h1]
      by_cases h2 : b + 1 ≤ c ∧ c - (b + 1) < vs.length
      · rw [dif_pos h2, dif_pos ⟨by omega, by rw [List.length_cons]; omega⟩]
        have e : c - b = (c - (b + 1)) + 1 := by omega
        simp only [e, List.getElem_cons_succ]
      · rw [dif_neg h2, dif_neg]
        rw [List.length_cons]; omega

@[simp] theorem Memory.length_readBytes (m : Memory) (b n : Nat) : (Memory.readBytes m b n).length = n := by
  induction n generalizing b with
  | zero => rfl
  | succ n ih => simp [Memory.readBytes, ih]

theorem Memory.getElem_readBytes (m : Memory) (b n i : Nat) (h : i < (Memory.readBytes m b n).length) :
    (Memory.readBytes m b n)[i] = Memory.readByte m (b + i) := by
  induction n generalizing b i with
  | zero => simp [Memory.readBytes] at h
  | succ n ih =>
    cases i with
    | zero => simp [Memory.readBytes]
    | succ i =>
      simp only [Memory.readBytes, List.getElem_cons_succ]
      rw [ih (b + 1) i (by simpa [Memory.readBytes] using h)]
      congr 1; omega

/-! ### Runs of Words -/

theorem Memory.wf_writeWords {m : Memory} (h : Memory.wf m = true) {a : Nat} {ws : List Word}
    (ha : a + ws.length ≤ 100) : Memory.wf (writeWords m a ws) = true := by
  induction ws generalizing m a with
  | nil => exact h
  | cons w ws ih =>
    rw [List.length_cons] at ha
    exact ih (Memory.wf_writeWord h (by omega) w) (by omega)

theorem Memory.readWord_writeWords {m : Memory} (h : Memory.wf m = true) {a : Nat} {ws : List Word}
    (ha : a + ws.length ≤ 100) (c : Nat) :
    Memory.readWord (writeWords m a ws) c =
      if h : a ≤ c ∧ c - a < ws.length then ws[c - a]'h.2 else Memory.readWord m c := by
  induction ws generalizing m a with
  | nil => simp [writeWords]
  | cons w ws ih =>
    rw [List.length_cons] at ha
    unfold writeWords
    rw [ih (Memory.wf_writeWord h (by omega) w) (by omega)]
    by_cases h1 : c = a
    · subst h1
      rw [dif_neg (by omega), dif_pos ⟨le_refl _, by simp⟩, Memory.readWord_writeWord_same h (by omega)]
      simp
    · rw [Memory.readWord_writeWord_other h (by omega) h1]
      by_cases h2 : a + 1 ≤ c ∧ c - (a + 1) < ws.length
      · rw [dif_pos h2, dif_pos ⟨by omega, by rw [List.length_cons]; omega⟩]
        have e : c - a = (c - (a + 1)) + 1 := by omega
        simp only [e, List.getElem_cons_succ]
      · rw [dif_neg h2, dif_neg]
        rw [List.length_cons]; omega

end Sys2Proof.Machine
end

