-- ==== Sys2Proof/Laws/Assembler.lean ====
section
/-! SUPPORT. What the two passes of the assembler do: the Words each line emits, and the definitions pass 1 collects. -/

namespace Sys2Proof.Machine

/-! ### Words per line -/

theorem packString_length (p : Text) : (packString p).length = (p.length + 1) / 2 := by
  induction p using packString.induct with
  | case1 => rfl
  | case2 c => simp [packString]
  | case3 c d rest ih => simp only [packString, List.length_cons, ih]; omega

theorem encodeInstr_length {opc : Opc} {t : Text} {n : Nat} {ws : List Word} (h : encodeInstr opc t n = .ok ws) :
    ws.length = 1 := by
  unfold encodeInstr at h
  split at h
  · split at h <;> cases h; rfl
  · cases h

/-- A line that encodes emits as many Words as its tag says (R66). -/
theorem encodeLine_length {opc : Opc} {table : LabelTable} {tag : LineTag} {ws : List Word}
    (h : encodeLine opc table tag = .ok ws) : ws.length = wordsEmitted tag := by
  cases tag <;> simp only [encodeLine] at h
  case stringLiteral p => cases h; exact packString_length p
  case instrNoOperand => exact encodeInstr_length h
  case dataWord => split at h <;> cases h; rfl
  case instrWithLiteral | instrWithReference =>
    split at h
    · exact encodeInstr_length h
    · cases h
  all_goals first | (cases h; rfl) | cases h

theorem encodeLexed_length {opc : Opc} {table : LabelTable} {l : LexedLine} {ws : List Word}
    (h : encodeLexed opc table l = .ok ws) : ws.length = wordsEmitted (classify l) := by
  unfold encodeLexed at h
  split at h
  · split at h
    · exact encodeLine_length h
    · cases h
  · exact encodeLine_length h

/-! ### Pass 1 -/

@[simp] theorem LabelDef.bind_name (i : Nat) (d : LabelDef) : (d.bind i).name = d.name := by
  unfold LabelDef.bind; split <;> rfl

theorem LabelDef.bind_of_none {i : Nat} {d : LabelDef} (h : d.addr = none) : (d.bind i).addr = some i := by
  simp [LabelDef.bind, h]

theorem LabelDef.bind_of_some {i a : Nat} {d : LabelDef} (h : d.addr = some a) : d.bind i = d := by
  simp [LabelDef.bind, h]

/-- Everything one line of pass 1 does: the index moves by the line's Words; the definitions so far keep their names and the
addresses they have; and the line's own label, if it has one, is added last. -/
theorem labelPassLine_spec (p : LabelPass) (n : Nat) (l : LexedLine) :
    (labelPassLine p n l).index = p.index + wordsEmitted (classify l) ∧
    ∃ (f : LabelDef → LabelDef) (own : List LabelDef),
      (∀ d, (f d).name = d.name) ∧ (∀ d a, d.addr = some a → f d = d) ∧
      (labelPassLine p n l).defs = p.defs.map f ++ own ∧ own.map (·.name) = l.label.toList ∧
      (l.label.isSome ∨ classify l = .blank → f = id) := by
  unfold labelPassLine
  split
  · rename_i m h1 h2
    exact ⟨by rw [h2]; rfl, id, _, fun _ => rfl, fun _ _ _ => rfl, by rw [List.map_id], by simp [h1], fun _ => rfl⟩
  · rename_i m h1 h2
    exact ⟨rfl, id, _, fun _ => rfl, fun _ _ _ => rfl, by rw [List.map_id], by simp [h1], fun _ => rfl⟩
  · rename_i h1 h2
    exact ⟨by rw [h2]; rfl, id, [], fun _ => rfl, fun _ _ _ => rfl, by simp, by simp [h1], fun _ => rfl⟩
  · rename_i h1 h2
    exact ⟨rfl, LabelDef.bind p.index, [], LabelDef.bind_name _, fun _ _ h => LabelDef.bind_of_some h, by simp, by simp [h1],
      fun h => h.elim (fun h => by simp [h1] at h) (fun h => absurd h h2)⟩

theorem labelPass_append (l1 l2 : List LexedLine) (p : LabelPass) (n : Nat) :
    labelPass p n (l1 ++ l2) = labelPass (labelPass p n l1) (n + l1.length) l2 := by
  induction l1 generalizing p n with
  | nil => rfl
  | cons l l1 ih => simp only [List.cons_append, labelPass, ih, List.length_cons]; congr 1; omega

theorem labelPass_index (ls : List LexedLine) (p : LabelPass) (n : Nat) :
    (labelPass p n ls).index = p.index + (ls.map (fun l => wordsEmitted (classify l))).sum := by
  induction ls generalizing p n with
  | nil => rfl
  | cons l ls ih =>
    simp only [labelPass, ih, (labelPassLine_spec p n l).1, List.map_cons, List.sum_cons]; omega

/-- Pass 1 over some lines keeps the definitions before them, in place, with their names and the addresses they have; over
lines that bind nothing saved it keeps them as they are. -/
theorem labelPass_defs (ls : List LexedLine) (p : LabelPass) (n : Nat) :
    ∃ (f : LabelDef → LabelDef) (own : List LabelDef),
      (∀ d, (f d).name = d.name) ∧ (∀ d a, d.addr = some a → f d = d) ∧
      (labelPass p n ls).defs = p.defs.map f ++ own ∧ own.map (·.name) = ls.filterMap (·.label) ∧
      ((∀ l ∈ ls, l.label.isSome ∨ classify l = .blank) → f = id) := by
  induction ls generalizing p n with
  | nil => exact ⟨id, [], fun _ => rfl, fun _ _ _ => rfl, by simp [labelPass], rfl, fun _ => rfl⟩
  | cons l ls ih =>
    obtain ⟨-, f, own, h1, h2, h3, h4, h5⟩ := labelPassLine_spec p n l
    obtain ⟨g, own', g1, g2, g3, g4, g5⟩ := ih (labelPassLine p n l) (n + 1)
    refine ⟨g ∘ f, own.map g ++ own', fun d => by simp [g1, h1], fun d a h => by simp [h2 d a h, g2 d a h], ?_, ?_, ?_⟩
    · simp [labelPass, g3, h3]
    · have : (own.map g).map (·.name) = l.label.toList := by
        rw [← h4, List.map_map]; exact List.map_congr_left fun d _ => g1 d
      rw [List.map_append, this, g4]
      cases hl : l.label <;> simp [hl]
    · intro h
      rw [h5 (h l (by simp)), g5 fun x hx => h x (by simp [hx])]; rfl

/-- The first definition of a name is the one it resolves to (R75). -/
theorem resolveLabel_table {p : LabelPass} {d1 d2 : List LabelDef} {d : LabelDef} {a : Nat}
    (hp : p.defs = d1 ++ d :: d2) (h1 : ∀ e ∈ d1, e.name ≠ d.name) (ha : d.addr = some a) :
    resolveLabel p.table d.name = some a := by
  have : ∀ e ∈ d1.filterMap (fun d => d.addr.map (fun a => (d.name, a))), e.1 ≠ d.name := by
    intro e he
    obtain ⟨x, hx, hxe⟩ := List.mem_filterMap.mp he
    obtain ⟨b, -, rfl⟩ := Option.map_eq_some_iff.mp hxe
    exact h1 x hx
  rw [resolveLabel, LabelPass.table, hp, List.filterMap_append, List.find?_append,
    List.find?_eq_none.mpr (by simpa using this)]
  simp [ha]

/-! ### Pass 2 -/

/-- Pass 2 without errors, one line at a time. -/
theorem encodePass_cons_ok {opc : Opc} {table : LabelTable} {n : Nat} {l : LexedLine} {ls : List LexedLine}
    (h : (encodePass opc table n (l :: ls)).2 = []) :
    ∃ ws, encodeLexed opc table l = .ok ws ∧
      (encodePass opc table n (l :: ls)).1 = ws ++ (encodePass opc table (n + 1) ls).1 ∧
      (encodePass opc table (n + 1) ls).2 = [] := by
  simp only [encodePass] at h ⊢
  rcases he : encodeLexed opc table l with e | ws
  · simp [he] at h
  · simp only [he] at h ⊢; exact ⟨ws, rfl, rfl, h⟩

theorem encodePass_length {opc : Opc} {table : LabelTable} {ls : List LexedLine} {n : Nat}
    (h : (encodePass opc table n ls).2 = []) :
    (encodePass opc table n ls).1.length = (ls.map (fun l => wordsEmitted (classify l))).sum := by
  induction ls generalizing n with
  | nil => rfl
  | cons l ls ih =>
    obtain ⟨ws, h1, h2, h3⟩ := encodePass_cons_ok h
    rw [h2, List.length_append, encodeLexed_length h1, ih h3]; simp

end Sys2Proof.Machine
end

