-- ==== Sys2Proof/Laws/State.lean ====
section
/-! SUPPORT. One lemma per field per update of the state, so that no proof unfolds a record update. -/

namespace Sys2Proof.Machine

/-! ### setIp -/

@[simp] theorem State.setIp_cfg (s : State) (v : Word) : (s.setIp v).cfg = s.cfg := rfl
@[simp] theorem State.setIp_ip (s : State) (v : Word) : (s.setIp v).ip = v := rfl
@[simp] theorem State.setIp_ir (s : State) (v : Word) : (s.setIp v).ir = s.ir := rfl
@[simp] theorem State.setIp_acc (s : State) (v : Word) : (s.setIp v).acc = s.acc := rfl
@[simp] theorem State.setIp_run (s : State) (v : Word) : (s.setIp v).run = s.run := rfl
@[simp] theorem State.setIp_mem (s : State) (v : Word) : (s.setIp v).mem = s.mem := rfl
@[simp] theorem State.setIp_input (s : State) (v : Word) : (s.setIp v).input = s.input := rfl
@[simp] theorem State.setIp_inputPos (s : State) (v : Word) : (s.setIp v).inputPos = s.inputPos := rfl
@[simp] theorem State.setIp_output (s : State) (v : Word) : (s.setIp v).output = s.output := rfl
@[simp] theorem State.setIp_hold (s : State) (v : Word) : (s.setIp v).hold = s.hold := rfl
@[simp] theorem State.setIp_storeDraw (s : State) (v : Word) : (s.setIp v).storeDraw = s.storeDraw := rfl

/-! ### setIr -/

@[simp] theorem State.setIr_cfg (s : State) (v : Word) : (s.setIr v).cfg = s.cfg := rfl
@[simp] theorem State.setIr_ip (s : State) (v : Word) : (s.setIr v).ip = s.ip := rfl
@[simp] theorem State.setIr_ir (s : State) (v : Word) : (s.setIr v).ir = v := rfl
@[simp] theorem State.setIr_acc (s : State) (v : Word) : (s.setIr v).acc = s.acc := rfl
@[simp] theorem State.setIr_run (s : State) (v : Word) : (s.setIr v).run = s.run := rfl
@[simp] theorem State.setIr_mem (s : State) (v : Word) : (s.setIr v).mem = s.mem := rfl
@[simp] theorem State.setIr_input (s : State) (v : Word) : (s.setIr v).input = s.input := rfl
@[simp] theorem State.setIr_inputPos (s : State) (v : Word) : (s.setIr v).inputPos = s.inputPos := rfl
@[simp] theorem State.setIr_output (s : State) (v : Word) : (s.setIr v).output = s.output := rfl
@[simp] theorem State.setIr_hold (s : State) (v : Word) : (s.setIr v).hold = s.hold := rfl
@[simp] theorem State.setIr_storeDraw (s : State) (v : Word) : (s.setIr v).storeDraw = s.storeDraw := rfl

/-! ### setRun -/

@[simp] theorem State.setRun_cfg (s : State) (r : Run) : (s.setRun r).cfg = s.cfg := rfl
@[simp] theorem State.setRun_ip (s : State) (r : Run) : (s.setRun r).ip = s.ip := rfl
@[simp] theorem State.setRun_ir (s : State) (r : Run) : (s.setRun r).ir = s.ir := rfl
@[simp] theorem State.setRun_acc (s : State) (r : Run) : (s.setRun r).acc = s.acc := rfl
@[simp] theorem State.setRun_run (s : State) (r : Run) : (s.setRun r).run = r := rfl
@[simp] theorem State.setRun_mem (s : State) (r : Run) : (s.setRun r).mem = s.mem := rfl
@[simp] theorem State.setRun_input (s : State) (r : Run) : (s.setRun r).input = s.input := rfl
@[simp] theorem State.setRun_inputPos (s : State) (r : Run) : (s.setRun r).inputPos = s.inputPos := rfl
@[simp] theorem State.setRun_output (s : State) (r : Run) : (s.setRun r).output = s.output := rfl
@[simp] theorem State.setRun_hold (s : State) (r : Run) : (s.setRun r).hold = s.hold := rfl
@[simp] theorem State.setRun_storeDraw (s : State) (r : Run) : (s.setRun r).storeDraw = s.storeDraw := rfl

/-! ### setMem -/

@[simp] theorem State.setMem_cfg (s : State) (m : Memory) : (s.setMem m).cfg = s.cfg := rfl
@[simp] theorem State.setMem_ip (s : State) (m : Memory) : (s.setMem m).ip = s.ip := rfl
@[simp] theorem State.setMem_ir (s : State) (m : Memory) : (s.setMem m).ir = s.ir := rfl
@[simp] theorem State.setMem_acc (s : State) (m : Memory) : (s.setMem m).acc = s.acc := rfl
@[simp] theorem State.setMem_run (s : State) (m : Memory) : (s.setMem m).run = s.run := rfl
@[simp] theorem State.setMem_mem (s : State) (m : Memory) : (s.setMem m).mem = m := rfl
@[simp] theorem State.setMem_input (s : State) (m : Memory) : (s.setMem m).input = s.input := rfl
@[simp] theorem State.setMem_inputPos (s : State) (m : Memory) : (s.setMem m).inputPos = s.inputPos := rfl
@[simp] theorem State.setMem_output (s : State) (m : Memory) : (s.setMem m).output = s.output := rfl
@[simp] theorem State.setMem_hold (s : State) (m : Memory) : (s.setMem m).hold = s.hold := rfl
@[simp] theorem State.setMem_storeDraw (s : State) (m : Memory) : (s.setMem m).storeDraw = s.storeDraw := rfl

/-! ### setHold -/

@[simp] theorem State.setHold_cfg (s : State) (h : Bool) : (s.setHold h).cfg = s.cfg := rfl
@[simp] theorem State.setHold_ip (s : State) (h : Bool) : (s.setHold h).ip = s.ip := rfl
@[simp] theorem State.setHold_ir (s : State) (h : Bool) : (s.setHold h).ir = s.ir := rfl
@[simp] theorem State.setHold_acc (s : State) (h : Bool) : (s.setHold h).acc = s.acc := rfl
@[simp] theorem State.setHold_run (s : State) (h : Bool) : (s.setHold h).run = s.run := rfl
@[simp] theorem State.setHold_mem (s : State) (h : Bool) : (s.setHold h).mem = s.mem := rfl
@[simp] theorem State.setHold_input (s : State) (h : Bool) : (s.setHold h).input = s.input := rfl
@[simp] theorem State.setHold_inputPos (s : State) (h : Bool) : (s.setHold h).inputPos = s.inputPos := rfl
@[simp] theorem State.setHold_output (s : State) (h : Bool) : (s.setHold h).output = s.output := rfl
@[simp] theorem State.setHold_hold (s : State) (h : Bool) : (s.setHold h).hold = h := rfl
@[simp] theorem State.setHold_storeDraw (s : State) (h : Bool) : (s.setHold h).storeDraw = s.storeDraw := rfl

/-! ### setStoreDraw -/

@[simp] theorem State.setStoreDraw_cfg (s : State) (d : Option Nat) : (s.setStoreDraw d).cfg = s.cfg := rfl
@[simp] theorem State.setStoreDraw_ip (s : State) (d : Option Nat) : (s.setStoreDraw d).ip = s.ip := rfl
@[simp] theorem State.setStoreDraw_ir (s : State) (d : Option Nat) : (s.setStoreDraw d).ir = s.ir := rfl
@[simp] theorem State.setStoreDraw_acc (s : State) (d : Option Nat) : (s.setStoreDraw d).acc = s.acc := rfl
@[simp] theorem State.setStoreDraw_run (s : State) (d : Option Nat) : (s.setStoreDraw d).run = s.run := rfl
@[simp] theorem State.setStoreDraw_mem (s : State) (d : Option Nat) : (s.setStoreDraw d).mem = s.mem := rfl
@[simp] theorem State.setStoreDraw_input (s : State) (d : Option Nat) : (s.setStoreDraw d).input = s.input := rfl
@[simp] theorem State.setStoreDraw_inputPos (s : State) (d : Option Nat) : (s.setStoreDraw d).inputPos = s.inputPos := rfl
@[simp] theorem State.setStoreDraw_output (s : State) (d : Option Nat) : (s.setStoreDraw d).output = s.output := rfl
@[simp] theorem State.setStoreDraw_hold (s : State) (d : Option Nat) : (s.setStoreDraw d).hold = s.hold := rfl
@[simp] theorem State.setStoreDraw_storeDraw (s : State) (d : Option Nat) : (s.setStoreDraw d).storeDraw = d := rfl

/-! ### emit -/

@[simp] theorem State.emit_cfg (s : State) (e : Event) : (s.emit e).cfg = s.cfg := rfl
@[simp] theorem State.emit_ip (s : State) (e : Event) : (s.emit e).ip = s.ip := rfl
@[simp] theorem State.emit_ir (s : State) (e : Event) : (s.emit e).ir = s.ir := rfl
@[simp] theorem State.emit_acc (s : State) (e : Event) : (s.emit e).acc = s.acc := rfl
@[simp] theorem State.emit_run (s : State) (e : Event) : (s.emit e).run = s.run := rfl
@[simp] theorem State.emit_mem (s : State) (e : Event) : (s.emit e).mem = s.mem := rfl
@[simp] theorem State.emit_input (s : State) (e : Event) : (s.emit e).input = s.input := rfl
@[simp] theorem State.emit_inputPos (s : State) (e : Event) : (s.emit e).inputPos = s.inputPos := rfl
@[simp] theorem State.emit_output (s : State) (e : Event) : (s.emit e).output = s.output ++ [e] := rfl
@[simp] theorem State.emit_hold (s : State) (e : Event) : (s.emit e).hold = s.hold := rfl
@[simp] theorem State.emit_storeDraw (s : State) (e : Event) : (s.emit e).storeDraw = s.storeDraw := rfl

/-! ### takeAnswer -/

@[simp] theorem State.takeAnswer_cfg (s : State) : (s.takeAnswer).cfg = s.cfg := rfl
@[simp] theorem State.takeAnswer_ip (s : State) : (s.takeAnswer).ip = s.ip := rfl
@[simp] theorem State.takeAnswer_ir (s : State) : (s.takeAnswer).ir = s.ir := rfl
@[simp] theorem State.takeAnswer_acc (s : State) : (s.takeAnswer).acc = s.acc := rfl
@[simp] theorem State.takeAnswer_run (s : State) : (s.takeAnswer).run = s.run := rfl
@[simp] theorem State.takeAnswer_mem (s : State) : (s.takeAnswer).mem = s.mem := rfl
@[simp] theorem State.takeAnswer_input (s : State) : (s.takeAnswer).input = s.input := rfl
@[simp] theorem State.takeAnswer_inputPos (s : State) : (s.takeAnswer).inputPos = s.inputPos + 1 := rfl
@[simp] theorem State.takeAnswer_output (s : State) : (s.takeAnswer).output = s.output := rfl
@[simp] theorem State.takeAnswer_hold (s : State) : (s.takeAnswer).hold = false := rfl
@[simp] theorem State.takeAnswer_storeDraw (s : State) : (s.takeAnswer).storeDraw = s.storeDraw := rfl

/-! ### raise -/

@[simp] theorem State.raise_cfg (s : State) (f : EngineFault) : (s.raise f).cfg = s.cfg := rfl
@[simp] theorem State.raise_ip (s : State) (f : EngineFault) : (s.raise f).ip = s.ip := rfl
@[simp] theorem State.raise_ir (s : State) (f : EngineFault) : (s.raise f).ir = s.ir := rfl
@[simp] theorem State.raise_acc (s : State) (f : EngineFault) : (s.raise f).acc = s.acc := rfl
@[simp] theorem State.raise_run (s : State) (f : EngineFault) : (s.raise f).run = .faulted f := rfl
@[simp] theorem State.raise_mem (s : State) (f : EngineFault) : (s.raise f).mem = s.mem := rfl
@[simp] theorem State.raise_input (s : State) (f : EngineFault) : (s.raise f).input = s.input := rfl
@[simp] theorem State.raise_inputPos (s : State) (f : EngineFault) : (s.raise f).inputPos = s.inputPos := rfl
@[simp] theorem State.raise_output (s : State) (f : EngineFault) : (s.raise f).output = s.output := rfl
@[simp] theorem State.raise_hold (s : State) (f : EngineFault) : (s.raise f).hold = s.hold := rfl
@[simp] theorem State.raise_storeDraw (s : State) (f : EngineFault) : (s.raise f).storeDraw = s.storeDraw := rfl

end Sys2Proof.Machine
end

