-- ==== Sys2Proof/Laws/Ops.lean ====
section
/-! SUPPORT. What each shared operation can do, said once: the sequencing of a step's parts, the backing store's draw, the
memory primitives and their runs, the input port, the fetch, the advance, and the execute phases of the I/O instructions. -/

namespace Sys2Proof.Machine

/-! ### Sequencing -/

@[simp] theorem Access.bind_ok {α β : Type} (v : α) (s : State) (f : α → State → Access β) :
    (Access.ok v s).bind f = f v s := rfl

@[simp] theorem Access.bind_stop {α β : Type} (s : State) (f : α → State → Access β) :
    (Access.stop s : Access α).bind f = .stop s := rfl

@[simp] theorem Access.state_ok {α : Type} (v : α) (s : State) : (Access.ok v s).state = s := rfl

@[simp] theorem Access.state_stop {α : Type} (s : State) : (Access.stop s : Access α).state = s := rfl

@[simp] theorem Access.finish_ok {α : Type} (v : α) (s : State) : (Access.ok v s).finish = .next s := rfl

@[simp] theorem Access.finish_stop {α : Type} (s : State) : (Access.stop s : Access α).finish = .next s := rfl

/-! ### The draw of the backing store -/

@[simp] theorem drawAllows_none (n : Nat) : drawAllows n none = true := rfl

@[simp] theorem drawAllows_some (n k : Nat) : drawAllows n (some k) = true ↔ n ≤ k := by simp [drawAllows]

@[simp] theorem drawAllows_zero (d : Option Nat) : drawAllows 0 d = true := by cases d <;> simp

@[simp] theorem drawAfter_none (n : Nat) : drawAfter n none = none := rfl

@[simp] theorem drawAfter_some (n k : Nat) : drawAfter n (some k) = some (k - n) := rfl

theorem drawAfter_zero (d : Option Nat) : drawAfter 0 d = d := by cases d <;> rfl

theorem drawAllows_succ {n : Nat} {d : Option Nat} :
    drawAllows (n + 1) d = true ↔ drawAllows 1 d = true ∧ drawAllows n (drawAfter 1 d) = true := by
  cases d <;> simp; omega

theorem drawAllows_mono {m n : Nat} {d : Option Nat} (h : drawAllows n d = true) (hm : m ≤ n) :
    drawAllows m d = true := by
  cases d <;> simp at *; omega

theorem drawAfter_drawAfter (m n : Nat) (d : Option Nat) : drawAfter n (drawAfter m d) = drawAfter (m + n) d := by
  cases d <;> simp; omega

theorem drawAllows_one_or (d : Option Nat) : drawAllows 1 d = true ∨ d = some 0 := by
  rcases d with _ | k
  · exact .inl rfl
  · cases k <;> simp

theorem storeAccess_ok {s : State} (h : drawAllows 1 s.storeDraw = true) :
    storeAccess s = .ok () (s.setStoreDraw (drawAfter 1 s.storeDraw)) := by
  obtain ⟨cfg, ip, ir, acc, run, mem, input, pos, out, hold, d⟩ := s
  rcases d with _ | k
  · rfl
  · cases k with
    | zero => simp at h
    | succ k => rfl

theorem storeAccess_stop {s : State} (h : s.storeDraw = some 0) :
    storeAccess s = .stop (s.raise (.storeFault s.ip)) := by
  simp [storeAccess, h]

/-! ### The memory primitives -/

theorem memReadWord_ok {a : Nat} {s : State} (ha : a ≤ 99) (h : drawAllows 1 s.storeDraw = true) :
    memReadWord a s = .ok (Memory.readWord s.mem a) (s.setStoreDraw (drawAfter 1 s.storeDraw)) := by
  simp [memReadWord, ha, storeAccess_ok h]

theorem memReadWord_outside {a : Nat} {s : State} (ha : 99 < a) :
    memReadWord a s = .stop (s.raise (.operandOutOfRange s.ip a)) := by
  simp [memReadWord, Nat.not_le.mpr ha]

theorem memReadWord_storeFault {a : Nat} {s : State} (ha : a ≤ 99) (h : s.storeDraw = some 0) :
    memReadWord a s = .stop (s.raise (.storeFault s.ip)) := by
  simp [memReadWord, ha, storeAccess_stop h]

theorem memWriteWord_ok {a : Nat} {v : Word} {s : State} (ha : a ≤ 99) (h : drawAllows 1 s.storeDraw = true) :
    memWriteWord a v s =
      .ok () ((s.setStoreDraw (drawAfter 1 s.storeDraw)).setMem (Memory.writeWord s.mem a v)) := by
  simp [memWriteWord, ha, storeAccess_ok h]

theorem memWriteWord_outside {a : Nat} {v : Word} {s : State} (ha : 99 < a) :
    memWriteWord a v s = .stop (s.raise (.operandOutOfRange s.ip a)) := by
  simp [memWriteWord, Nat.not_le.mpr ha]

theorem memWriteWord_storeFault {a : Nat} {v : Word} {s : State} (ha : a ≤ 99) (h : s.storeDraw = some 0) :
    memWriteWord a v s = .stop (s.raise (.storeFault s.ip)) := by
  simp [memWriteWord, ha, storeAccess_stop h]

theorem memReadByte_ok {b : Nat} {s : State} (hb : b ≤ 199) (h : drawAllows 1 s.storeDraw = true) :
    memReadByte b s = .ok (Memory.readByte s.mem b) (s.setStoreDraw (drawAfter 1 s.storeDraw)) := by
  simp [memReadByte, hb, storeAccess_ok h]

theorem memReadByte_outside {b : Nat} {s : State} (hb : 199 < b) :
    memReadByte b s = .stop (s.raise (.operandOutOfRange s.ip (b / 2))) := by
  simp [memReadByte, Nat.not_le.mpr hb]

theorem memReadByte_storeFault {b : Nat} {s : State} (hb : b ≤ 199) (h : s.storeDraw = some 0) :
    memReadByte b s = .stop (s.raise (.storeFault s.ip)) := by
  simp [memReadByte, hb, storeAccess_stop h]

theorem memWriteByte_ok {b : Nat} {v : Byte} {s : State} (hb : b ≤ 199) (h : drawAllows 1 s.storeDraw = true) :
    memWriteByte b v s =
      .ok () ((s.setStoreDraw (drawAfter 1 s.storeDraw)).setMem (Memory.writeByte s.mem b v)) := by
  simp [memWriteByte, hb, storeAccess_ok h]

theorem memWriteByte_outside {b : Nat} {v : Byte} {s : State} (hb : 199 < b) :
    memWriteByte b v s = .stop (s.raise (.operandOutOfRange s.ip (b / 2))) := by
  simp [memWriteByte, Nat.not_le.mpr hb]

theorem memWriteByte_storeFault {b : Nat} {v : Byte} {s : State} (hb : b ≤ 199) (h : s.storeDraw = some 0) :
    memWriteByte b v s = .stop (s.raise (.storeFault s.ip)) := by
  simp [memWriteByte, hb, storeAccess_stop h]

/-! ### Runs of byte accesses -/

theorem memReadBytes_ok {b n : Nat} {s : State} (hb : b + n ≤ 200) (h : drawAllows n s.storeDraw = true) :
    memReadBytes b n s = .ok (Memory.readBytes s.mem b n) (s.setStoreDraw (drawAfter n s.storeDraw)) := by
  induction n generalizing b s with
  | zero => simp [memReadBytes, Memory.readBytes, drawAfter_zero, State.setStoreDraw]
  | succ n ih =>
    rw [drawAllows_succ] at h
    rw [memReadBytes, memReadByte_ok (by omega) h.1, Access.bind_ok, ih (by omega) h.2]
    simp [Memory.readBytes, State.setStoreDraw, drawAfter_drawAfter, Nat.add_comm]

theorem memReadBytes_storeFault {b n k : Nat} {s : State} (hb : b + n ≤ 200) (h : s.storeDraw = some k) (hk : k < n) :
    memReadBytes b n s = .stop ((s.setStoreDraw (some 0)).raise (.storeFault s.ip)) := by
  induction n generalizing b s k with
  | zero => omega
  | succ n ih =>
    cases k with
    | zero =>
      have e : s.setStoreDraw (some 0) = s := by simp [State.setStoreDraw, ← h]
      rw [memReadBytes, memReadByte_storeFault (by omega) h, e]; rfl
    | succ k =>
      rw [memReadBytes, memReadByte_ok (by omega) (by simp [h]), Access.bind_ok, h]
      rw [ih (k := k) (by omega) (by simp) (by omega)]
      simp [State.setStoreDraw]

theorem memWriteBytes_ok {b : Nat} {vs : List Byte} {s : State} (hb : b + vs.length ≤ 200)
    (h : drawAllows vs.length s.storeDraw = true) :
    memWriteBytes b vs s =
      .ok () ((s.setStoreDraw (drawAfter vs.length s.storeDraw)).setMem (Memory.writeBytes s.mem b vs)) := by
  induction vs generalizing b s with
  | nil => simp [memWriteBytes, Memory.writeBytes, drawAfter_zero, State.setStoreDraw, State.setMem]
  | cons v vs ih =>
    rw [List.length_cons] at hb h
    rw [drawAllows_succ] at h
    rw [memWriteBytes, memWriteByte_ok (by omega) h.1, Access.bind_ok, ih (by omega) h.2]
    simp [Memory.writeBytes, State.setStoreDraw, State.setMem, drawAfter_drawAfter, Nat.add_comm]

theorem memWriteBytes_storeFault {b k : Nat} {vs : List Byte} {s : State} (hb : b + vs.length ≤ 200)
    (h : s.storeDraw = some k) (hk : k < vs.length) :
    memWriteBytes b vs s =
      .stop (((s.setStoreDraw (some 0)).setMem (Memory.writeBytes s.mem b (vs.take k))).raise (.storeFault s.ip)) := by
  induction vs generalizing b s k with
  | nil => simp at hk
  | cons v vs ih =>
    rw [List.length_cons] at hb hk
    cases k with
    | zero =>
      have e : (s.setStoreDraw (some 0)).setMem s.mem = s := by simp [State.setStoreDraw, State.setMem, ← h]
      rw [memWriteBytes, memWriteByte_storeFault (by omega) h]
      simp [Memory.writeBytes, e]
    | succ k =>
      rw [memWriteBytes, memWriteByte_ok (by omega) (by simp [h]), Access.bind_ok, h]
      rw [ih (k := k) (by omega) (by simp) (by omega)]
      simp [State.setStoreDraw, State.setMem, Memory.writeBytes]

/-- A draw lets `n` accesses succeed, or fails one of them. -/
theorem drawAllows_or (n : Nat) (d : Option Nat) : drawAllows n d = true ∨ ∃ k, d = some k ∧ k < n := by
  rcases d with _ | k
  · exact .inl rfl
  · by_cases h : n ≤ k
    · exact .inl (by simpa using h)
    · exact .inr ⟨k, rfl, by omega⟩

/-! ### The input port, the fetch and the advance -/

theorem askInput_some {s : State} {ans : Answer} (h : s.input[s.inputPos]? = some ans) :
    askInput s = .ok ans s.takeAnswer := by simp [askInput, h]

theorem askInput_none {s : State} (h : s.input[s.inputPos]? = none) : askInput s = .stop (s.setHold true) := by
  simp [askInput, h]

theorem fetch_ok {s : State} (hi : s.ip.toNat ≤ 99) (h : drawAllows 1 s.storeDraw = true) :
    fetch s = .ok () ((s.setStoreDraw (drawAfter 1 s.storeDraw)).setIr (Memory.readWord s.mem s.ip.toNat)) := by
  simp [fetch, hi, storeAccess_ok h]

theorem fetch_outside {s : State} (hi : 99 < s.ip.toNat) : fetch s = .stop (s.raise (.fetchOutOfRange s.ip)) := by
  simp [fetch, Nat.not_le.mpr hi]

theorem fetch_storeFault {s : State} (hi : s.ip.toNat ≤ 99) (h : s.storeDraw = some 0) :
    fetch s = .stop (s.raise (.storeFault s.ip)) := by
  simp [fetch, hi, storeAccess_stop h]

theorem advance_on {s : State} (hr : s.run = .running) (hh : s.hold = false) : advance s = s.setIp (s.ip + 1) := by
  simp [advance, hr, hh]

theorem advance_off {s : State} (h : s.run ≠ .running ∨ s.hold = true) : advance s = s := by
  unfold advance
  rw [if_neg]
  rintro ⟨h1, h2⟩
  rcases h with h | h
  · exact h h1
  · simp [h2] at h

theorem advance_cases (s : State) :
    (s.run = .running ∧ s.hold = false ∧ advance s = s.setIp (s.ip + 1)) ∨
      ((s.run ≠ .running ∨ s.hold = true) ∧ advance s = s) := by
  by_cases hr : s.run = .running
  · cases hh : s.hold
    · exact .inl ⟨hr, rfl, advance_on hr hh⟩
    · exact .inr ⟨.inr rfl, advance_off (.inr hh)⟩
  · exact .inr ⟨.inl hr, advance_off (.inl hr)⟩

/-! ### The execute phases of the I/O instructions: everything each can do -/

theorem execRdi_cases {a : Byte} {s t : State} (h : execRdi a s = .next t) :
    (99 < wordAddr a ∧ t = s.raise (.operandOutOfRange s.ip (wordAddr a))) ∨
    (wordAddr a ≤ 99 ∧ s.input[s.inputPos]? = none ∧ t = s.setHold true) ∨
    (∃ ans, wordAddr a ≤ 99 ∧ s.input[s.inputPos]? = some ans ∧
      ((ans.asInt = .bad ∧ t = s.takeAnswer.raise (.inputError s.ip)) ∨
       (∃ n, ans.asInt = .int n ∧
         ((fitsInt32 n = false ∧ t = s.takeAnswer.raise (.inputError s.ip)) ∨
          (fitsInt32 n = true ∧ s.storeDraw = some 0 ∧ t = s.takeAnswer.raise (.storeFault s.ip)) ∨
          (fitsInt32 n = true ∧ drawAllows 1 s.storeDraw = true ∧
            t = (s.takeAnswer.setStoreDraw (drawAfter 1 s.storeDraw)).setMem
                  (Memory.writeWord s.mem (wordAddr a) (wrap16 n))))))) := by
  unfold execRdi at h
  by_cases ha : wordAddr a ≤ 99
  · rw [if_pos ha] at h
    rcases hin : s.input[s.inputPos]? with _ | ans
    · rw [askInput_none hin] at h
      cases h
      exact .inr (.inl ⟨ha, rfl, rfl⟩)
    · rw [askInput_some hin] at h
      refine .inr (.inr ⟨ans, ha, rfl, ?_⟩)
      rcases hai : ans.asInt with n | _
      · simp only [Access.bind_ok, hai] at h
        refine .inr ⟨n, rfl, ?_⟩
        cases hf : fitsInt32 n
        · simp [hf] at h
          exact .inl ⟨rfl, h.symm⟩
        · simp only [hf, if_true] at h
          rcases drawAllows_one_or s.storeDraw with hd | hd
          · rw [memWriteWord_ok ha (by simpa using hd)] at h
            simp at h
            exact .inr (.inr ⟨rfl, hd, h.symm⟩)
          · rw [memWriteWord_storeFault ha (by simpa using hd)] at h
            simp at h
            exact .inr (.inl ⟨rfl, hd, h.symm⟩)
      · simp only [Access.bind_ok, hai] at h
        simp at h
        exact .inl ⟨rfl, h.symm⟩
  · rw [if_neg ha] at h
    cases h
    exact .inl ⟨by omega, rfl⟩

theorem execRds_cases {a : Byte} {s t : State} (h : execRds a s = .next t) :
    (blockFits s.cfg a = false ∧ t = s.raise (.operandOutOfRange s.ip (wordAddr a))) ∨
    (blockFits s.cfg a = true ∧ s.input[s.inputPos]? = none ∧ t = s.setHold true) ∨
    (∃ ans, blockFits s.cfg a = true ∧ s.input[s.inputPos]? = some ans ∧
      ((ans.asLine = .eof ∧ t = s.takeAnswer.raise (.inputError s.ip)) ∨
       (∃ l, ans.asLine = .line l ∧
         ((s.cfg.strBlock < l.length + 1 ∧ t = s.takeAnswer.raise (.inputTooLong s.ip l.length)) ∨
          (∃ k, l.length + 1 ≤ s.cfg.strBlock ∧ s.storeDraw = some k ∧ k < l.length + 1 ∧
            t = ((s.takeAnswer.setStoreDraw (some 0)).setMem
                  (Memory.writeBytes s.mem (byteAddr a) ((l ++ [0]).take k))).raise (.storeFault s.ip)) ∨
          (l.length + 1 ≤ s.cfg.strBlock ∧ drawAllows (l.length + 1) s.storeDraw = true ∧
            t = (s.takeAnswer.setStoreDraw (drawAfter (l.length + 1) s.storeDraw)).setMem
                  (Memory.writeBytes s.mem (byteAddr a) (l ++ [0]))))))) := by
  unfold execRds at h
  cases hb : blockFits s.cfg a
  · simp [hb] at h
    exact .inl ⟨rfl, h.symm⟩
  · rw [hb, if_pos rfl] at h
    have hfit : byteAddr a + s.cfg.strBlock ≤ 200 := by simpa [blockFits] using hb
    rcases hin : s.input[s.inputPos]? with _ | ans
    · rw [askInput_none hin] at h
      cases h
      exact .inr (.inl ⟨rfl, rfl, rfl⟩)
    · rw [askInput_some hin] at h
      refine .inr (.inr ⟨ans, rfl, rfl, ?_⟩)
      rcases hal : ans.asLine with l | _
      · simp only [Access.bind_ok, hal] at h
        refine .inr ⟨l, rfl, ?_⟩
        by_cases hl : l.length + 1 ≤ s.cfg.strBlock
        · rw [if_pos hl] at h
          have hlen : (l ++ [(0 : Byte)]).length = l.length + 1 := by simp
          rcases drawAllows_or (l.length + 1) s.storeDraw with hd | ⟨k, hk, hk2⟩
          · rw [memWriteBytes_ok (by omega) (by simpa using hd)] at h
            simp at h
            exact .inr (.inr ⟨hl, hd, h.symm⟩)
          · rw [memWriteBytes_storeFault (k := k) (by omega) (by simpa using hk) (by omega)] at h
            simp at h
            exact .inr (.inl ⟨k, hl, hk, hk2, h.symm⟩)
        · rw [if_neg hl] at h
          simp at h
          exact .inl ⟨by omega, h.symm⟩
      · simp only [Access.bind_ok, hal] at h
        simp at h
        exact .inl ⟨rfl, h.symm⟩

theorem execPrti_cases {a : Byte} {s t : State} (h : execPrti a s = .next t) :
    (99 < wordAddr a ∧ t = s.raise (.operandOutOfRange s.ip (wordAddr a))) ∨
    (wordAddr a ≤ 99 ∧ s.storeDraw = some 0 ∧ t = s.raise (.storeFault s.ip)) ∨
    (wordAddr a ≤ 99 ∧ drawAllows 1 s.storeDraw = true ∧
      t = (s.setStoreDraw (drawAfter 1 s.storeDraw)).emit (.int (s16 (Memory.readWord s.mem (wordAddr a))))) := by
  unfold execPrti at h
  by_cases ha : wordAddr a ≤ 99
  · rcases drawAllows_one_or s.storeDraw with hd | hd
    · rw [memReadWord_ok ha hd] at h
      simp at h
      exact .inr (.inr ⟨ha, hd, h.symm⟩)
    · rw [memReadWord_storeFault ha hd] at h
      simp at h
      exact .inr (.inl ⟨ha, hd, h.symm⟩)
  · rw [memReadWord_outside (by omega)] at h
    simp at h
    exact .inl ⟨by omega, h.symm⟩

theorem execPrts_cases {a : Byte} {s t : State} (h : execPrts a s = .next t) :
    (blockFits s.cfg a = false ∧ t = s.raise (.operandOutOfRange s.ip (wordAddr a))) ∨
    (∃ k, blockFits s.cfg a = true ∧ s.storeDraw = some k ∧ k < s.cfg.strBlock ∧
      t = (s.setStoreDraw (some 0)).raise (.storeFault s.ip)) ∨
    (blockFits s.cfg a = true ∧ drawAllows s.cfg.strBlock s.storeDraw = true ∧
      t = (s.setStoreDraw (drawAfter s.cfg.strBlock s.storeDraw)).emit
            (.str ((Memory.readBytes s.mem (byteAddr a) s.cfg.strBlock).takeWhile (· ≠ 0)))) := by
  unfold execPrts at h
  cases hb : blockFits s.cfg a
  · simp [hb] at h
    exact .inl ⟨rfl, h.symm⟩
  · rw [hb, if_pos rfl] at h
    have hfit : byteAddr a + s.cfg.strBlock ≤ 200 := by simpa [blockFits] using hb
    rcases drawAllows_or s.cfg.strBlock s.storeDraw with hd | ⟨k, hk, hk2⟩
    · rw [memReadBytes_ok hfit hd] at h
      simp at h
      exact .inr (.inr ⟨rfl, hd, by simpa using h.symm⟩)
    · rw [memReadBytes_storeFault hfit hk hk2] at h
      simp at h
      exact .inr (.inl ⟨k, rfl, hk, hk2, h.symm⟩)

/-! ### The step: everything it can do -/

/-- What `execute` answers when it answers a next state. -/
theorem execute_cases {s t : State} (h : execute s = .next t) :
    (∃ i u, decode s.cfg.opc s.ir = .ok i ∧ exec i s = .next u ∧ t = advance u) ∨
    (∃ e, decode s.cfg.opc s.ir = .error e ∧ t = s.raise (.illegalOpcode s.ip s.ir)) := by
  unfold execute at h
  by_cases hd : dispatchSettled s.cfg.opc s.ir = true
  · rw [if_pos hd] at h
    rcases hdec : decode s.cfg.opc s.ir with e | i
    · rw [hdec] at h
      cases h
      exact .inr ⟨e, rfl, rfl⟩
    · rw [hdec] at h
      rcases hex : exec i s with u | r | r
      · simp only [hex] at h
        cases h
        exact .inl ⟨i, u, rfl, hex, rfl⟩
      · simp [hex] at h
      · simp [hex] at h
  · rw [if_neg hd] at h
    cases h

/-- The step's own three ways to a next state: on with the held instruction, a fetch and its instruction, or a fault at the
fetch. -/
theorem step_cases {s t : State} (h : step s = .next t) :
    s.run = .running ∧
    ((s.hold = true ∧ execute s = .next t) ∨
     (s.hold = false ∧ s.ip.toNat ≤ 99 ∧ drawAllows 1 s.storeDraw = true ∧
       execute ((s.setStoreDraw (drawAfter 1 s.storeDraw)).setIr (Memory.readWord s.mem s.ip.toNat)) = .next t) ∨
     (s.hold = false ∧ 99 < s.ip.toNat ∧ t = s.raise (.fetchOutOfRange s.ip)) ∨
     (s.hold = false ∧ s.ip.toNat ≤ 99 ∧ s.storeDraw = some 0 ∧ t = s.raise (.storeFault s.ip))) := by
  unfold step cycle at h
  rcases hr : s.run with _ | _ | f
  · refine ⟨rfl, ?_⟩
    simp only [hr] at h
    cases hh : s.hold
    · simp only [hh, Bool.false_eq_true, if_false] at h
      by_cases hi : s.ip.toNat ≤ 99
      · rcases drawAllows_one_or s.storeDraw with hd | hd
        · rw [fetch_ok hi hd] at h
          exact .inr (.inl ⟨rfl, hi, hd, h⟩)
        · rw [fetch_storeFault hi hd] at h
          cases h
          exact .inr (.inr (.inr ⟨rfl, hi, hd, rfl⟩))
      · rw [fetch_outside (by omega)] at h
        cases h
        exact .inr (.inr (.inl ⟨rfl, by omega, rfl⟩))
    · simp only [hh, if_true] at h
      exact .inl ⟨rfl, h⟩
  · simp [hr] at h
  · simp [hr] at h

end Sys2Proof.Machine
end

