-- ==== Sys2Proof/Laws/PerInstr.lean ====
section
/-! SUPPORT. The per-instruction family `EncodedFields`: what the two fields of an instruction's Word hold (R54, R55). -/

namespace Sys2Proof.Laws.EncodedFields

/-- The Word of an instruction holds its mnemonic's OPC value in bits 15..8 and its operand byte in bits 7..0, for every OPC. -/
def Statement (i : Instr) : Prop :=
  ∀ opc : Opc, opcodeOf (encode opc i) = opc.value i.mnemonic ∧ operandOf (encode opc i) = i.operand

theorem fields (i : Instr) : Statement i := fun _ =>
  ⟨Sys2Proof.Machine.opcodeOf_packWord _ _, Sys2Proof.Machine.operandOf_packWord _ _⟩

theorem rdi (a : Byte) : Statement (.rdi a) := fields _
theorem rds (a : Byte) : Statement (.rds a) := fields _
theorem prti (a : Byte) : Statement (.prti a) := fields _
theorem prts (a : Byte) : Statement (.prts a) := fields _
theorem b (a : Byte) : Statement (.b a) := fields _
theorem bn (a : Byte) : Statement (.bn a) := fields _
theorem bz (a : Byte) : Statement (.bz a) := fields _
theorem halt (x : Byte) : Statement (.halt x) := fields _

end Sys2Proof.Laws.EncodedFields
end

