-- ==== Sys2Proof/Laws/Run.lean ====
section
/-! SUPPORT. Runs of the machine: one step at a time, the induction over a run packaged once, and the parts of a step that
fetches (R85, R87). -/

namespace Sys2Proof.Machine

theorem run_succ_of_next (M : Host.Core) {k : Nat} {s t : M.State} (h : M.step s = .next t) :
    M.run (k + 1) s = M.run k t := by
  simp only [Host.Core.run, h]

theorem run_succ_cases (M : Host.Core) {k : Nat} {s t : M.State} (h : M.run (k + 1) s = .next t) :
    ∃ u, M.step s = .next u ∧ M.run k u = .next t := by
  rcases hs : M.step s with u | r | r
  · exact ⟨u, rfl, by simpa only [Host.Core.run, hs] using h⟩
  · simp only [Host.Core.run, hs] at h
    cases h
  · simp only [Host.Core.run, hs] at h
    cases h

theorem core_run_zero (s : State) : Sys2Proof.core.run 0 s = .next s := rfl

theorem core_run_succ_of_next {k : Nat} {s t : State} (h : step s = .next t) :
    Sys2Proof.core.run (k + 1) s = Sys2Proof.core.run k t :=
  run_succ_of_next Sys2Proof.core h

theorem core_run_succ_cases {k : Nat} {s t : State} (h : Sys2Proof.core.run (k + 1) s = .next t) :
    ∃ u, step s = .next u ∧ Sys2Proof.core.run k u = .next t :=
  run_succ_cases Sys2Proof.core h

/-- What holds at the start of a run and is kept by every step holds of every state the run reaches. -/
theorem Reaches.induct {P : State → Prop} (hstep : ∀ s t, P s → step s = .next t → P t) {s t : State}
    (hr : Reaches s t) (h0 : P s) : P t := by
  obtain ⟨k, hk⟩ := hr
  induction k generalizing s with
  | zero => rw [core_run_zero] at hk; cases hk; exact h0
  | succ k ih =>
    obtain ⟨u, hu, hk'⟩ := core_run_succ_cases hk
    exact ih (hstep s u h0 hu) hk'

/-! ### A step that fetches -/

theorem fetchable_iff {s : State} :
    s.fetchable = true ↔
      s.run = .running ∧ s.hold = false ∧ s.ip.toNat ≤ 99 ∧ drawAllows 1 s.storeDraw = true := by
  simp [State.fetchable, and_assoc]

theorem fetch_of_fetchable {s : State} (h : s.fetchable = true) : fetch s = .ok () s.afterFetch := by
  obtain ⟨-, -, h3, h4⟩ := fetchable_iff.mp h
  rw [fetch_ok h3 h4]; rfl

theorem step_of_fetchable {s : State} (h : s.fetchable = true) : step s = execute s.afterFetch := by
  obtain ⟨h1, h2, -, -⟩ := fetchable_iff.mp h
  simp [step, cycle, h1, h2, fetch_of_fetchable h]

theorem execute_of_decode {s t : State} {i : Instr} (hd : dispatchSettled s.cfg.opc s.ir = true)
    (hi : decode s.cfg.opc s.ir = .ok i) (ht : exec i s = .next t) : execute s = .next (advance t) := by
  simp [execute, hd, hi, ht]

theorem execute_illegal {s : State} {e : DecodeError} (hd : dispatchSettled s.cfg.opc s.ir = true)
    (hi : decode s.cfg.opc s.ir = .error e) : execute s = .next (s.raise (.illegalOpcode s.ip s.ir)) := by
  simp [execute, hd, hi]

end Sys2Proof.Machine
end

