-- ==== Sys2Proof/Tests/Slice0.lean ====
section
/-! SUPPORT. The model's own tests: words written out from the spec's encodings, the smoke tests of the well-formedness checks,
vectors of 95_test_vectors.md (named beside each), and for every statement with hypotheses a state and operands that meet them. -/

namespace Sys2Proof.Tests

open Sys2Proof Sys2Proof.Machine

/-! ### Helpers -/

/-- A launched machine with IP = `ip` and these words in memory. -/
def at_ (ip : Word) (ws : List (Nat × Word)) : State :=
  { State.reset with ip := ip, mem := ws.foldl (fun m e => Memory.writeWord m e.1 e.2) [] }

/-- The host answers `n` to a request for an integer, and end of input to one for a line. -/
def intAnswer (n : Int) : Answer := { asInt := .int n, asLine := .eof }

/-- The host answers this line to a request for one, and `Bad` to one for an integer. -/
def lineAnswer (l : List Byte) : Answer := { asInt := .bad, asLine := .line l }

/-- The characters of a text in ASCII codes. -/
def ascii (s : String) : Text := s.toList.map fun c => BitVec.ofNat 8 c.toNat

/-- The state one step leads to. -/
def next1 (s : State) : Option State :=
  match step s with
  | .next t => some t
  | _ => none

/-- The Words, errors and warnings of an assembly. -/
def assembled (s : String) : Option (List Word × List (Nat × LineError) × List (Nat × Text)) :=
  (assemble Opc.default noComments (ascii s)).toOption.map fun r => (r.words, r.errors, r.warnings)

/-! ### Decoding: words written out from 30_encoding.md section 2 -/

theorem test_decode_rdi : decode Opc.default 0b0000101000010100 = .ok (.rdi 20) := by decide
theorem test_decode_rds : decode Opc.default 0b0000101100011110 = .ok (.rds 30) := by decide
theorem test_decode_prti : decode Opc.default 0b0000110001100011 = .ok (.prti 99) := by decide
theorem test_decode_prts : decode Opc.default 0b0000110100101000 = .ok (.prts 40) := by decide
theorem test_decode_b : decode Opc.default 0b0010100000000101 = .ok (.b 5) := by decide
theorem test_decode_bn : decode Opc.default 0b0010100100001001 = .ok (.bn 9) := by decide
theorem test_decode_bz : decode Opc.default 0b0010101011111111 = .ok (.bz 255) := by decide
theorem test_decode_end : decode Opc.default 0b0010101100000111 = .ok (.halt 7) := by decide
theorem test_decode_table_word : decodeTableWord 16 0x2B07 = some (.halt 7) := by decide
theorem test_decode_one_past_end : decodeTableWord 16 0x2C00 = none := by decide
theorem test_decode_bytes_low_first :
    decodeBytes Opc.default [0x14, 0x0A, 0xFF] = .ok (.rdi 20, [0xFF]) := by decide
theorem test_decode_truncated : decodeBytes Opc.default [0x14] = .error .truncated := by decide

/-! ### Well-formedness: an ill-formed term for each check -/

theorem test_wf_duplicate_opc : Opc.distinct { Opc.default with halt := 0x0A } = false := by decide
theorem test_wf_default_opc : Opc.distinct Opc.default = true := by decide
theorem test_wf_block_zero : Config.strBlockOk { Config.default with strBlock := 0 } = false := by decide
theorem test_wf_block_201 : Config.strBlockOk { Config.default with strBlock := 201 } = false := by decide
theorem test_wf_block_200 : Config.wf { Config.default with strBlock := 200 } = true := by decide
theorem test_wf_config_duplicate : Config.wf { Config.default with opc := { Opc.default with b := 0x29 } } = false := by decide
theorem test_wf_entry_100 : entryOk 100 = false := by decide
theorem test_wf_base_100 : baseOk 100 = false := by decide

/-! ### Vectors of 95_test_vectors.md -/

/-- I3. -/
theorem test_rdi_wraps :
    (next1 { at_ 0 [(0, 0x0A14)] with input := [intAnswer 32768] }).map
      (fun t => (Memory.readWord t.mem 20, t.ip)) = some (0x8000, 1) := by decide

/-- I10. -/
theorem test_rdi_checks_before_input :
    (next1 { at_ 0 [(0, 0x0A64)] with input := [intAnswer 1] }).map (fun t => (t.run, t.inputPos)) =
      some (.faulted (.operandOutOfRange 0 100), 0) := by decide

/-- D2. -/
theorem test_rds_keeps_high_byte :
    (next1 { at_ 0 [(0, 0x0B1E), (30, 0x1111), (31, 0x2222)] with input := [lineAnswer (ascii "Hi")] }).map
      (fun t => (Memory.readWord t.mem 30, Memory.readWord t.mem 31)) = some (0x6948, 0x2200) := by decide

/-- D10: the fetch and two byte writes succeed, the third write fails. -/
theorem test_rds_store_fault_partway :
    (next1 { at_ 0 [(0, 0x0B1E), (30, 0x1111), (31, 0x2222)] with
        input := [lineAnswer (ascii "Hi!")], storeDraw := some 3 }).map
      (fun t => (t.run, Memory.readWord t.mem 30, Memory.readWord t.mem 31)) =
      some (.faulted (.storeFault 0), 0x6948, 0x2222) := by decide

/-- P2. -/
theorem test_prti_signed :
    (next1 (at_ 0 [(0, 0x0C05), (5, 0x8000)])).map (·.output) = some [.int (-32768)] := by decide

/-- P5. -/
theorem test_prti_out_of_range :
    (next1 (at_ 0 [(0, 0x0CFF)])).map (fun t => (t.run, t.output)) =
      some (.faulted (.operandOutOfRange 0 255), []) := by decide

/-- T5. -/
theorem test_prts_stops_at_zero :
    (next1 (at_ 0 [(0, 0x0D28), (40, 0x4948), (41, 0x4141)])).map (·.output) = some [.str (ascii "HIAA")] := by decide

/-- T6. -/
theorem test_prts_block_past_end :
    (next1 (at_ 0 [(0, 0x0D5D)])).map (·.run) = some (.faulted (.operandOutOfRange 0 93)) := by decide

/-- B2. -/
theorem test_b_to_zero : (next1 (at_ 5 [(5, 0x2800)])).map (·.ip) = some 0 := by decide

/-- B4. -/
theorem test_b_outside_is_taken : (next1 (at_ 0 [(0, 0x28C8)])).map (fun t => (t.ip, t.run)) = some (200, .running) := by
  decide

/-- B6. -/
theorem test_bn_taken : (next1 { at_ 3 [(3, 0x2909)] with acc := 0x8000 }).map (·.ip) = some 9 := by decide

/-- B8. -/
theorem test_bn_not_taken : (next1 { at_ 3 [(3, 0x2909)] with acc := 0x7FFF }).map (·.ip) = some 4 := by decide

/-- B9. -/
theorem test_bz_taken : (next1 { at_ 7 [(7, 0x2A02)] with acc := 0 }).map (·.ip) = some 2 := by decide

/-- B11. -/
theorem test_bz_not_taken : (next1 { at_ 7 [(7, 0x2A02)] with acc := 0x8000 }).map (·.ip) = some 8 := by decide

/-- H2. -/
theorem test_end_reports :
    (next1 { at_ 9 [(9, 0x2B07)] with acc := 0xFFFF }).map (fun t => (t.run, t.ip, t.output)) =
      some (.halted, 9, [.halt 9 0x2B07 0xFFFF]) := by decide

/-- E8. -/
theorem test_store_fault_at_fetch :
    (next1 { at_ 0 [(0, 0x0C05)] with ir := 0x1234, storeDraw := some 0 }).map (fun t => (t.run, t.ir)) =
      some (.faulted (.storeFault 0), 0x1234) := by decide

/-- F4. -/
theorem test_illegal_opcode_first :
    (next1 (at_ 0 [(0, 0x0064)])).map (·.run) = some (.faulted (.illegalOpcode 0 0x64)) := by decide

/-- R88: no answer, so the engine holds, past its fetch. -/
theorem test_rdi_holds :
    (next1 (at_ 0 [(0, 0x0A14)])).map (fun t => (t.hold, t.run, t.ip, t.ir)) = some (true, .running, 0, 0x0A14) := by decide

/-- A placed word is the instruction the very next step runs. -/
theorem test_withFetchWord :
    (next1 (State.reset.withFetchWord 16 0x2B07)).map (fun t => (t.run, t.output)) =
      some (.halted, [.halt 0 0x2B07 0]) := by decide

/-- L1. -/
theorem test_load_relocates :
    (load Opc.default 10 [0x2802, 0x0C03, 0x2B07, 0x0005] createdStore).toOption.map
      (fun m => [10, 11, 12, 13].map (Memory.readWord m ·)) = some [0x280C, 0x0C0D, 0x2B07, 0x0005] := by decide

/-- L4. -/
theorem test_load_overflow : load Opc.default 10 [0x28F8] createdStore = .error .relocationOverflow := by decide

/-- L7. -/
theorem test_load_base_100 : load Opc.default 100 [] createdStore = .error .loadOutOfRange := by decide

/-- The machine right after reset is a launch on a created store. -/
theorem test_reset_is_a_launch :
    launch Config.default { entry := 0, accInit := 0, irInit := 0, input := [], storeDraw := none } createdStore =
      .ok State.reset := by rfl

/-- S3. -/
theorem test_asm_label : assembled "B L\nPRTI 0\nL: END" = some ([0x2802, 0x0C00, 0x2B00], [], []) := by decide

/-- S4. -/
theorem test_asm_label_only : assembled "B L\nEND\nL:\nEND" = some ([0x2802, 0x2B00, 0x2B00], [], []) := by decide

/-- S5. -/
theorem test_asm_dangling :
    assembled "B L\nEND\nL:" = some ([0x2B00], [(1, .invalidInstruction)], [(3, ascii "L")]) := by decide

/-- S6. -/
theorem test_asm_string :
    assembled "X: \"ABC\"\n\nY:\n5\nEND" = some ([0x4241, 0x0043, 0x0005, 0x2B00], [], []) := by decide

/-- S2: octal. -/
theorem test_asm_octal : assembled "052" = some ([0x002A], [], []) := by decide

/-- S2: wrap. -/
theorem test_asm_wrap : assembled "40000" = some ([0x9C40], [], []) := by decide

/-- A1. -/
theorem test_asm_lower_case : assembled "rdi 0x14" = some ([0x0A14], [], []) := by decide

/-- A4. -/
theorem test_asm_operand_256 : assembled "B 256" = some ([], [(1, .invalidInstruction)], []) := by decide

/-- A7. -/
theorem test_asm_unclosed : assembled "\"AB" = some ([], [(1, .invalidString)], []) := by decide

/-- A12. -/
theorem test_asm_bad_octal : assembled "08" = some ([], [(1, .invalidInstruction)], []) := by decide

/-- R75: the saved label of line 1 is the first definition, although line 2's is bound before it. -/
theorem test_asm_first_definition :
    resolveLabel (assembleLines Opc.default ((["L:", "L: 5", "6"].map ascii).map lexLine)).table (ascii "L") = some 1 := by decide

/-- 93_implementation_defined.md row 3. -/
theorem test_asm_duplicate_label :
    assemble Opc.default noComments (ascii "L: 5\nL: 6") = .error .duplicateLabel := by decide

/-! ### Witnesses: states and operands that meet the hypotheses of the statements -/

theorem witness_DecodeInvertsEncode : Opc.distinct Opc.default = true := by decide

theorem witness_EncodeInvertsDecode : decode Opc.default 0x2BFF = .ok (.halt 255) := by decide

theorem witness_IllegalOpcodesAreTheOther248 :
    Opc.distinct Opc.default = true ∧ opcodeOf 0x0A00 = opcodeOf 0x0AFF := by decide

theorem witness_ZeroAndNegativeWordsIllegalByDefault :
    s16 0x8000 < 0 ∧ s16 0xFFFF < 0 ∧ State.reset.cfg.opc = Opc.default ∧ State.reset.fetchable = true ∧
      ∀ b, Memory.readByte State.reset.mem b = 0 :=
  ⟨by decide, by decide, rfl, by decide, fun _ => rfl⟩

/-- A state whose next step runs the instruction of a Word at address 99, with one access left in the draw. -/
def lastWord (w : Word) : State := { at_ 99 [(99, w)] with storeDraw := some 1 }

theorem witness_StepRunsTheDecodedInstruction : (lastWord 0x0A00).willRun (.rdi 0) := ⟨by decide, by decide, by decide⟩

theorem witness_StepRunsTheDecodedInstruction_held :
    let s : State := { at_ 0 [(0, 0x0A63)] with ir := 0x0A63, hold := true, input := [intAnswer 1] }
    s.run = .running ∧ s.hold = true ∧ dispatchSettled s.cfg.opc s.ir = true ∧ decode s.cfg.opc s.ir = .ok (.rdi 99) := by
  decide

theorem witness_FetchLoadsIrOrFaults_outside :
    (at_ 100 []).run = .running ∧ (at_ 100 []).hold = false ∧ 99 < (at_ 100 []).ip.toNat := by decide

theorem witness_FetchLoadsIrOrFaults_inside :
    (lastWord 0x2805).run = .running ∧ (lastWord 0x2805).hold = false ∧ (lastWord 0x2805).ip.toNat ≤ 99 ∧
      drawAllows 1 (lastWord 0x2805).storeDraw = true ∧ next1 (lastWord 0x2805) ≠ none := by decide

theorem witness_StoreFaultAtFetch :
    let s := { at_ 99 [] with storeDraw := some 0 }
    s.run = .running ∧ s.hold = false ∧ s.ip.toNat ≤ 99 ∧ s.storeDraw = some 0 := by decide

theorem witness_IllegalOpcodeFaults :
    (lastWord 0x2C00).fetchable = true ∧
      dispatchSettled (lastWord 0x2C00).cfg.opc (lastWord 0x2C00).wordAtIp = true ∧
      opcodeOf (lastWord 0x2C00).wordAtIp ∉ (lastWord 0x2C00).cfg.opc.values := by decide

theorem witness_HoldLastsUntilTheAnswer_rdi :
    (at_ 0 [(0, 0x0A63)]).willRun (.rdi 99) ∧ wordAddr 99 ≤ 99 ∧
      (at_ 0 [(0, 0x0A63)]).input[(at_ 0 [(0, 0x0A63)]).inputPos]? = none :=
  ⟨⟨by decide, by decide, by decide⟩, by decide, by decide⟩

theorem witness_HoldLastsUntilTheAnswer_rds :
    (at_ 0 [(0, 0x0B5C)]).willRun (.rds 92) ∧ blockFits (at_ 0 [(0, 0x0B5C)]).cfg 92 = true ∧
      (at_ 0 [(0, 0x0B5C)]).input[(at_ 0 [(0, 0x0B5C)]).inputPos]? = none :=
  ⟨⟨by decide, by decide, by decide⟩, by decide, by decide⟩

/-- A state that holds in an RDI of word 99, with these answers given. -/
def heldState (answers : List Answer) : State :=
  { at_ 0 [(0, 0x0A63)] with ir := 0x0A63, hold := true, input := answers }

theorem witness_HoldLastsUntilTheAnswer_held :
    ((heldState []).hold = true ∧ (heldState []).holdOk ∧
      dispatchSettled (heldState []).cfg.opc (heldState []).ir = true) ∧
      (heldState [intAnswer 1]).hold = true ∧ (heldState [intAnswer 1]).holdOk ∧
        dispatchSettled (heldState [intAnswer 1]).cfg.opc (heldState [intAnswer 1]).ir = true :=
  ⟨⟨rfl, fun _ => ⟨rfl, by decide, by decide, 99, .inl ⟨by decide, by decide⟩⟩, by decide⟩,
    rfl, fun _ => ⟨rfl, by decide, by decide, 99, .inl ⟨by decide, by decide⟩⟩, by decide⟩

theorem witness_HoldLastsUntilTheAnswer_unanswered : (heldState []).input[(heldState []).inputPos]? = none := by decide

theorem witness_HoldLastsUntilTheAnswer_answered :
    (heldState [intAnswer 1]).input[(heldState [intAnswer 1]).inputPos]? ≠ none := by decide

theorem witness_OnlyEndedRunsHaveNoStep :
    ({ at_ 0 [] with run := .halted } : State).run = .halted ∧
      ({ at_ 0 [] with run := .faulted (.inputError 0) } : State).run = .faulted (.inputError 0) ∧
      (heldState []).run = .running ∧
      dispatchSettled (heldState []).cfg.opc (if (heldState []).hold then (heldState []).ir else (heldState []).wordAtIp) = true := by
  decide

theorem witness_RdiStoresTheInteger_greatest :
    let s := { lastWord 0 with input := [intAnswer 2147483647] }
    Memory.wf s.mem = true ∧ wordAddr 99 ≤ 99 ∧ s.input[s.inputPos]? = some (intAnswer 2147483647) ∧
      (intAnswer 2147483647).asInt = .int 2147483647 ∧ -2 ^ 31 ≤ (2147483647 : Int) ∧ (2147483647 : Int) ≤ 2 ^ 31 - 1 ∧
      drawAllows 1 s.storeDraw = true := by decide

theorem witness_RdiStoresTheInteger_least :
    let s := { lastWord 0 with input := [intAnswer (-2147483648)] }
    s.input[s.inputPos]? = some (intAnswer (-2147483648)) ∧ (intAnswer (-2147483648)).asInt = .int (-2147483648) ∧
      -2 ^ 31 ≤ (-2147483648 : Int) ∧ (-2147483648 : Int) ≤ 2 ^ 31 - 1 := by decide

theorem witness_RdiTrapsAndWaits :
    99 < wordAddr 100 ∧ wordAddr 99 ≤ 99 ∧ (at_ 0 []).input[(at_ 0 []).inputPos]? = none ∧
      (lineAnswer []).asInt = .bad ∧ (2 : Int) ^ 31 - 1 < 2147483648 ∧ (-2147483649 : Int) < -2 ^ 31 := by decide

theorem witness_RdiTrapsAndWaits_answered :
    let s := { at_ 0 [] with input := [intAnswer 2147483648, lineAnswer []], storeDraw := some 0 }
    s.input[s.inputPos]? = some (intAnswer 2147483648) ∧ s.storeDraw = some 0 := by decide

theorem witness_RdiNeverReadsItsDestination_storeFault :
    let s := { at_ 0 [] with input := [intAnswer 5], storeDraw := some 0 }
    Memory.wf s.mem = true ∧ wordAddr 99 ≤ 99 ∧ s.input[s.inputPos]? = some (intAnswer 5) ∧
      (intAnswer 5).asInt = .int 5 ∧ s.storeDraw = some 0 := by decide

/-- A line of 15 characters, which with its zero byte fills a block of 16 bytes exactly. -/
def fifteen : List Byte := List.replicate 15 0x41

theorem witness_RdsStoresTheLine :
    let s := { at_ 0 [] with input := [lineAnswer fifteen], storeDraw := some 16 }
    Memory.wf s.mem = true ∧ blockFits s.cfg 92 = true ∧ s.input[s.inputPos]? = some (lineAnswer fifteen) ∧
      (lineAnswer fifteen).asLine = .line fifteen ∧ fifteen.length + 1 ≤ s.cfg.strBlock ∧
      drawAllows (fifteen.length + 1) s.storeDraw = true := by decide

theorem witness_RdsTrapsAndWaits :
    200 < byteAddr 93 + State.reset.cfg.strBlock ∧ byteAddr 92 + State.reset.cfg.strBlock ≤ 200 ∧
      State.reset.input[State.reset.inputPos]? = none ∧ (intAnswer 0).asLine = .eof ∧
      State.reset.cfg.strBlock < (List.replicate 16 (0x41 : Byte)).length + 1 := by decide

theorem witness_RdsTrapsAndWaits_storeFault :
    let s := { at_ 0 [] with input := [lineAnswer fifteen], storeDraw := some 15 }
    byteAddr 92 + s.cfg.strBlock ≤ 200 ∧ s.input[s.inputPos]? = some (lineAnswer fifteen) ∧
      fifteen.length + 1 ≤ s.cfg.strBlock ∧ s.storeDraw = some 15 ∧ 15 ≤ fifteen.length ∧ Memory.wf s.mem = true := by decide

theorem witness_PrtiEmitsTheWord :
    wordAddr 99 ≤ 99 ∧ 99 < wordAddr 100 ∧ drawAllows 1 (lastWord 0).storeDraw = true ∧
      ({ at_ 0 [] with storeDraw := some 0 } : State).storeDraw = some 0 := by decide

theorem witness_PrtsEmitsTheBlock :
    let s := { at_ 0 [] with storeDraw := some 16 }
    blockFits s.cfg 92 = true ∧ drawAllows s.cfg.strBlock s.storeDraw = true := by decide

theorem witness_PrtsTraps :
    let s := { at_ 0 [] with storeDraw := some 15 }
    200 < byteAddr 93 + s.cfg.strBlock ∧ byteAddr 92 + s.cfg.strBlock ≤ 200 ∧ s.storeDraw = some 15 ∧
      15 < s.cfg.strBlock := by decide

theorem witness_PrtsPrintsWhatRdsRead :
    let s := { at_ 0 [] with input := [lineAnswer fifteen], storeDraw := some 32 }
    Memory.wf s.mem = true ∧ blockFits s.cfg 92 = true ∧ s.input[s.inputPos]? = some (lineAnswer fifteen) ∧
      fifteen.length + 1 ≤ s.cfg.strBlock ∧ drawAllows (fifteen.length + 1 + s.cfg.strBlock) s.storeDraw = true ∧
      ∀ c ∈ fifteen, c ≠ 0 := by decide

theorem witness_IoLeavesRegistersAndAdvances :
    (Instr.rdi 20).mnemonic ∈ [Mnemonic.rdi, .rds, .prti, .prts] ∧
      ({ at_ 0 [(0, 0x0A14)] with input := [intAnswer 1] } : State).willRun (.rdi 20) ∧
      (next1 { at_ 0 [(0, 0x0A14)] with input := [intAnswer 1] }).map (fun t => (t.run, t.hold)) = some (.running, false) ∧
      (next1 (at_ 0 [(0, 0x0A14)])).map (·.hold) = some true :=
  ⟨by decide, ⟨by decide, by decide, by decide⟩, by decide, by decide⟩

theorem witness_BBranchesAlways :
    (at_ 3 [(3, 0x2803)]).willRun (.b 3) ∧ (at_ 3 [(3, 0x2803)]).storeDraw = none ∧
      (at_ 3 [(3, 0x2803)]).ip.toNat = (3 : Byte).toNat :=
  ⟨⟨by decide, by decide, by decide⟩, by decide, by decide⟩

theorem witness_BnBranchesIfNegative :
    s16 ({ lastWord 0x2900 with acc := 0xFFFF } : State).acc < 0 ∧ 0 ≤ s16 (lastWord 0x2900).acc ∧
      (lastWord 0x2900).willRun (.bn 0) :=
  ⟨by decide, by decide, ⟨by decide, by decide, by decide⟩⟩

theorem witness_BzBranchesIfZero :
    (lastWord 0x2AFF).acc = 0 ∧ ({ lastWord 0x2AFF with acc := 1 } : State).acc ≠ 0 ∧ (lastWord 0x2AFF).willRun (.bz 255) :=
  ⟨by decide, by decide, ⟨by decide, by decide, by decide⟩⟩

theorem witness_TakenBranchReachesItsOperand_b : (lastWord 0x2800).takesBranch (.b 0) 0 ∧ (lastWord 0x2800).willRun (.b 0) :=
  ⟨.inl rfl, ⟨by decide, by decide, by decide⟩⟩

theorem witness_TakenBranchReachesItsOperand_bn :
    ({ lastWord 0x29FF with acc := 0x8000 } : State).takesBranch (.bn 255) 255 := .inr (.inl ⟨rfl, by decide⟩)

theorem witness_BranchOutsideFaultsAtNextFetch :
    (lastWord 0x2A64).takesBranch (.bz 100) 100 ∧ (lastWord 0x2A64).willRun (.bz 100) ∧ 100 ≤ (100 : Byte).toNat :=
  ⟨.inr (.inr ⟨rfl, rfl⟩), ⟨by decide, by decide, by decide⟩, by decide⟩

theorem witness_EndReportsAndHalts :
    (lastWord 0x2B07).willRun (.halt 7) ∧ (lastWord 0x2B07).cfg.opc.distinct = true :=
  ⟨⟨by decide, by decide, by decide⟩, by decide⟩

/-- What a launch at word 99 is given. -/
def launchAt99 (acc : Word) : LaunchInput := { entry := 99, accInit := acc, irInit := 7, input := [], storeDraw := none }

/-- The state such a launch starts in. -/
def launched (acc : Word) (m : Memory) : State := { State.reset with ip := 99, ir := 7, acc := acc, mem := m }

theorem witness_launch (acc : Word) (m : Memory) :
    launch Config.default (launchAt99 acc) m = .ok (launched acc m) := rfl

theorem witness_FirstWordEndEndsTheRun : (launched 5 (Memory.writeWord [] 99 0x2B07)).willRun (.halt 7) :=
  ⟨by decide, by decide, by decide⟩

theorem witness_ByteAccessesTouchOneByte :
    Memory.wf (lastWord 0x1234).mem = true ∧ drawAllows 1 (lastWord 0x1234).storeDraw = true ∧ 199 ≤ 199 ∧ 199 < 200 := by
  decide

theorem witness_WordsAndBytesShareOneLayout : Memory.wf (Memory.writeWord [] 99 0x1234) = true ∧ 99 ≤ 99 := by decide

theorem witness_WrittenWordIsFetchedNext :
    let s := { at_ 98 [(98, 0x0A63)] with input := [intAnswer 11008], storeDraw := some 3 }
    s.willRun (.rdi 99) ∧ Memory.wf s.mem = true ∧ wordAddr 99 ≤ 99 ∧ wordAddr 99 = s.ip.toNat + 1 ∧
      s.input[s.inputPos]? = some (intAnswer 11008) ∧ fitsInt32 11008 = true ∧ drawAllows 3 s.storeDraw = true :=
  ⟨⟨by decide, by decide, by decide⟩, by decide, by decide, by decide, by decide, by decide, by decide⟩

theorem witness_StepsWriteOnlyTheirDestination :
    let s := { at_ 0 [(0, 0x0A63)] with input := [intAnswer (-1)] }
    Memory.wf s.mem = true ∧
      (next1 s).map (fun t => (Memory.readByte t.mem 198, Memory.readByte t.mem 199)) = some (0xFF, 0xFF) ∧
      Memory.readByte s.mem 198 = 0 ∧ Memory.readByte s.mem 199 = 0 := by decide

theorem witness_FaultsArePrecise :
    (next1 { at_ 0 [(0, 0x0B1E)] with input := [lineAnswer fifteen], storeDraw := some 1 }).map (·.run) =
      some (.faulted (.storeFault 0)) ∧
      (next1 { heldState [lineAnswer []] with output := [.int 1] }).map (·.run) = some (.faulted (.inputError 0)) := by decide

theorem witness_FirstFailingCheckIsReported :
    (at_ 0 [(0, 0x0A64)]).run = .running ∧ (at_ 0 [(0, 0x0A64)]).hold = false ∧
      dispatchSettled (at_ 0 [(0, 0x0A64)]).cfg.opc (at_ 0 [(0, 0x0A64)]).wordAtIp = true ∧
      decode (heldState []).cfg.opc (heldState []).ir = .ok (.rdi 99) := by decide

theorem witness_Reaches (s : State) : Reaches s s := ⟨0, rfl⟩

theorem witness_IpStaysBelow257 :
    let t := launched 0 (Memory.writeWord [] 99 0x2AFF)
    (next1 t).map (fun u => (u.ip, u.run, u.hold)) = some (255, .running, false) := by decide

theorem witness_ConditionalBranchesGoOneWay :
    (launchAt99 0).accInit = 0 ∧ s16 (launchAt99 0x8000).accInit < 0 ∧ 0 < s16 (launchAt99 0x7FFF).accInit := by decide

theorem witness_StepsKeepAccParametersAndInput : next1 (lastWord 0x2805) ≠ none := by decide

theorem witness_PortsOnlyMoveForward : next1 (heldState []) = some (heldState []) := by decide

theorem witness_StepKeepsTheInvariant : State.reset.Inv ∧ next1 State.reset ≠ none := by
  refine ⟨⟨rfl, by decide, by decide, by decide, ?_, ?_, ?_⟩, by decide⟩ <;> intro h
  · simp [State.reset]
  · simp [State.reset]
  · exact absurd h (by decide)

theorem witness_LaunchStartsTheRun : (launchAt99 0).entry ≤ 99 ∧ 99 < ({ launchAt99 0 with entry := 100 } : LaunchInput).entry := by
  decide

theorem witness_LaunchMeetsTheInvariant :
    Config.default.wf = true ∧ Memory.wf (Memory.writeWord [] 99 0x2B00) = true := by decide

theorem witness_LaunchIrIsUnobservable :
    launch Config.default { launchAt99 5 with irInit := 8 } [] = .ok { launched 5 [] with ir := 8 } ∧
      drawAllows 1 (launchAt99 5).storeDraw = true := ⟨rfl, by decide⟩

theorem witness_OnlyBnBzEndReadAcc : (Instr.b 0).mnemonic ∉ [Mnemonic.bn, .bz, .halt] := by decide

theorem witness_LoadWritesTheRelocatedStream :
    Memory.wf createdStore = true ∧ (load Opc.default 99 [0x2B00] createdStore).toOption ≠ none := by decide

theorem witness_LoadsThatDoNotFitAreRefused :
    100 < 96 + [0, 0, 0, 0, (0 : Word)].length ∧ 95 + [0, 0, 0, 0, (0 : Word)].length ≤ 100 ∧
      reloc Opc.default 8 0x28F8 = none ∧ reloc Opc.default 7 0x28F8 ≠ none := by decide

theorem witness_RelocationShiftsOperands :
    opcodeOf 0x28F8 ∈ [Opc.default.rdi, Opc.default.rds, Opc.default.prti, Opc.default.prts, Opc.default.b, Opc.default.bn,
      Opc.default.bz] ∧ (operandOf 0x28F8).toNat + 7 ≤ 255 ∧ 255 < (operandOf 0x28F8).toNat + 8 ∧
      opcodeOf 0x2B07 = Opc.default.halt ∧
      opcodeOf 0x2B07 ∉ [Opc.default.rdi, Opc.default.rds, Opc.default.prti, Opc.default.prts, Opc.default.b, Opc.default.bn,
        Opc.default.bz] := by decide

theorem witness_LookAlikeDataIsRelocated :
    1 ≤ 99 ∧ (operandOf 0x2AFF).toNat + 0 ≤ 255 ∧ (operandOf 0x2A9C).toNat + 99 ≤ 255 ∧
      reloc Opc.default 99 0x2A9C ≠ some 0x2A9C := by decide

theorem witness_StringsPackTwoCharactersAWord :
    (packString (ascii "ABC")).length = 2 ∧ 1 < (packString (ascii "ABC")).length := by decide

theorem witness_InstructionLinesEmitTheirWord :
    literalValue (ascii "0XFF") = some 255 ∧ literalValue (ascii "256") = some 256 ∧ resolveLabel [] (ascii "L") = none ∧
      resolveLabel [(ascii "L", 255)] (ascii "L") = some 255 := by decide

theorem witness_CleanAssemblyCountsItsWords :
    (assemble Opc.default noComments (ascii "X: \"ABC\"\nEND")).toOption.map (·.badProgram) = some false := by decide

theorem witness_LabelIsTheIndexOfItsWord :
    (lexLine (ascii "L: END")).label = some (ascii "L") ∧ classify (lexLine (ascii "L: END")) ≠ .labelOnly ∧
      (assembleLines Opc.default ([lexLine (ascii "B L")] ++ lexLine (ascii "L: END") :: [lexLine []])).badProgram = false := by
  decide

theorem witness_FirstDefinitionWins_own :
    (lexLine (ascii "L: END")).label = some (ascii "L") ∧ classify (lexLine (ascii "L: END")) ≠ .labelOnly ∧
      ∀ b ∈ [lexLine (ascii "B L")], b.label ≠ some (ascii "L") := by decide

theorem witness_FirstDefinitionWins_saved :
    (lexLine (ascii "L:")).label = some (ascii "L") ∧ classify (lexLine (ascii "L:")) = .labelOnly ∧
      (∀ b ∈ [lexLine (ascii "B L")], b.label ≠ some (ascii "L")) ∧
      (∀ b ∈ [lexLine (ascii "L: 5"), lexLine []], b.label.isSome = true ∨ classify b = .blank) ∧
      (lexLine (ascii "6")).label = none ∧ classify (lexLine (ascii "6")) ≠ .blank := by decide

theorem witness_FirstDefinitionWins_twice :
    lexSource noComments (ascii "L: 5\nL: 6") = [] ++ lexLine (ascii "L: 5") :: ([] ++ lexLine (ascii "L: 6") :: []) ∧
      (lexLine (ascii "L: 5")).label = some (ascii "L") ∧ (lexLine (ascii "L: 6")).label = some (ascii "L") ∧
      labelNameOk (ascii "L") = true := by decide

/-- One faulting step for each clause: faults 2 and 5, the store failing at the fetch, and at the accesses of RDI, PRTI and RDS. -/
theorem witness_FaultsKeepWhatWasDone :
    ((next1 State.reset).bind (·.run.faultCode) = some 2) ∧
      ((next1 { at_ 0 [(0, 0x0B1E)] with input := [lineAnswer (0x41 :: fifteen)] }).bind (·.run.faultCode) = some 5) ∧
      ((next1 { at_ 0 [] with storeDraw := some 0 }).bind (·.run.faultCode) = some 6) ∧
      ((next1 { heldState [intAnswer 1] with storeDraw := some 0 }).bind (·.run.faultCode) = some 6) ∧
      ((next1 (lastWord 0x0C00)).bind (·.run.faultCode) = some 6) ∧
      ((next1 { at_ 0 [(0, 0x0B1E)] with input := [lineAnswer fifteen], storeDraw := some 3 }).bind (·.run.faultCode) =
        some 6) := by decide

end Sys2Proof.Tests
end

section
/-! PROOFS. What no step writes (R7, R25, R90), the two ways of a conditional branch (R101, R102), and O37 from the two (R34). -/

namespace Sys2Proof.Machine

/-! ### The frame of a step -/

/-- What a launch sets and no step writes is the same in both states: ACC, the parameters and the host's input (R7, R25, R90). -/
structure State.SameSetup (s t : State) : Prop where
  acc : t.acc = s.acc
  cfg : t.cfg = s.cfg
  input : t.input = s.input

theorem State.SameSetup.refl (s : State) : s.SameSetup s := ⟨rfl, rfl, rfl⟩

theorem State.SameSetup.trans {s t u : State} (hst : s.SameSetup t) (htu : t.SameSetup u) : s.SameSetup u :=
  ⟨htu.acc.trans hst.acc, htu.cfg.trans hst.cfg, htu.input.trans hst.input⟩

theorem advance_sameSetup (s : State) : s.SameSetup (advance s) := by
  obtain ⟨-, -, hadv⟩ | ⟨-, hadv⟩ := advance_cases s <;> rw [hadv]
  · exact ⟨rfl, rfl, rfl⟩
  · exact .refl s

theorem execRdi_sameSetup {a : Byte} {s t : State} (h : execRdi a s = .next t) : s.SameSetup t := by
  obtain ⟨-, rfl⟩ | ⟨-, -, rfl⟩ |
    ⟨_, -, -, ⟨-, rfl⟩ | ⟨_, -, ⟨-, rfl⟩ | ⟨-, -, rfl⟩ | ⟨-, -, rfl⟩⟩⟩ := execRdi_cases h <;>
  exact ⟨rfl, rfl, rfl⟩

theorem execRds_sameSetup {a : Byte} {s t : State} (h : execRds a s = .next t) : s.SameSetup t := by
  obtain ⟨-, rfl⟩ | ⟨-, -, rfl⟩ |
    ⟨_, -, -, ⟨-, rfl⟩ | ⟨_, -, ⟨-, rfl⟩ | ⟨_, -, -, -, rfl⟩ | ⟨-, -, rfl⟩⟩⟩ := execRds_cases h <;>
  exact ⟨rfl, rfl, rfl⟩

theorem execPrti_sameSetup {a : Byte} {s t : State} (h : execPrti a s = .next t) : s.SameSetup t := by
  obtain ⟨-, rfl⟩ | ⟨-, -, rfl⟩ | ⟨-, -, rfl⟩ := execPrti_cases h <;> exact ⟨rfl, rfl, rfl⟩

theorem execPrts_sameSetup {a : Byte} {s t : State} (h : execPrts a s = .next t) : s.SameSetup t := by
  obtain ⟨-, rfl⟩ | ⟨_, -, -, -, rfl⟩ | ⟨-, -, rfl⟩ := execPrts_cases h <;> exact ⟨rfl, rfl, rfl⟩

theorem branchTo_sameSetup (a : Byte) (s : State) : s.SameSetup (branchTo a s) := ⟨rfl, rfl, rfl⟩

theorem exec_sameSetup {i : Instr} {s t : State} (h : exec i s = .next t) : s.SameSetup t := by
  cases i with
  | rdi a => exact execRdi_sameSetup h
  | rds a => exact execRds_sameSetup h
  | prti a => exact execPrti_sameSetup h
  | prts a => exact execPrts_sameSetup h
  | b a => cases h; exact branchTo_sameSetup a s
  | bn a =>
    cases h
    split
    · exact branchTo_sameSetup a s
    · exact .refl s
  | bz a =>
    cases h
    split
    · exact branchTo_sameSetup a s
    · exact .refl s
  | halt x => cases h; exact ⟨rfl, rfl, rfl⟩

theorem execute_sameSetup {s t : State} (h : execute s = .next t) : s.SameSetup t := by
  obtain ⟨i, u, -, hexec, rfl⟩ | ⟨e, -, rfl⟩ := execute_cases h
  · exact (exec_sameSetup hexec).trans (advance_sameSetup u)
  · exact ⟨rfl, rfl, rfl⟩

theorem step_sameSetup {s t : State} (h : step s = .next t) : s.SameSetup t := by
  obtain ⟨-, ⟨-, hheld⟩ | ⟨-, -, -, hfetched⟩ | ⟨-, -, rfl⟩ | ⟨-, -, -, rfl⟩⟩ := step_cases h
  · exact execute_sameSetup hheld
  · have hfetch : s.SameSetup
        ((s.setStoreDraw (drawAfter 1 s.storeDraw)).setIr (Memory.readWord s.mem s.ip.toNat)) := ⟨rfl, rfl, rfl⟩
    exact hfetch.trans (execute_sameSetup hfetched)
  · exact ⟨rfl, rfl, rfl⟩
  · exact ⟨rfl, rfl, rfl⟩

theorem Reaches.sameSetup {s t : State} (h : Reaches s t) : s.SameSetup t :=
  h.induct (P := s.SameSetup) (fun _ _ hu hstep => hu.trans (step_sameSetup hstep)) (.refl s)

theorem launch_acc {c : Config} {l : LaunchInput} {m : Memory} {s : State} (h : launch c l m = .ok s) :
    s.acc = l.accInit := by
  unfold launch at h
  split at h <;> cases h
  rfl

/-! ### The two ways of a conditional branch -/

theorem branchTo_eq (a : Byte) (s : State) : branchTo a s = { s with ip := BitVec.ofNat 16 a.toNat - 1 } := by
  simp [branchTo, branchTarget, State.setIp]

theorem exec_bn_of_neg {a : Byte} {s : State} (h : s16 s.acc < 0) :
    exec (.bn a) s = .next { s with ip := BitVec.ofNat 16 a.toNat - 1 } := by
  simp [exec, execBn, accNegative, h, branchTo_eq]

theorem exec_bn_of_nonneg {a : Byte} {s : State} (h : 0 ≤ s16 s.acc) : exec (.bn a) s = .next s := by
  simp [exec, execBn, accNegative, h]

theorem exec_bz_of_zero {a : Byte} {s : State} (h : s.acc = 0) :
    exec (.bz a) s = .next { s with ip := BitVec.ofNat 16 a.toNat - 1 } := by
  simp [exec, execBz, accZero, h, branchTo_eq]

theorem exec_bz_of_ne_zero {a : Byte} {s : State} (h : s.acc ≠ 0) : exec (.bz a) s = .next s := by
  simp only [exec, execBz, accZero, decide_eq_true_eq, if_neg h]

theorem s16_zero : s16 0 = 0 := rfl

theorem ne_zero_of_s16_ne_zero {p : Word} (h : s16 p ≠ 0) : p ≠ 0 := by
  rintro rfl
  exact h s16_zero

/-- Settles O37: every step keeps ACC, so at each reached state ACC_INIT alone decides both branches. -/
theorem conditionalBranchesGoOneWay : Obligations.ConditionalBranchesGoOneWay := by
  intro c l m s t a hlaunch hreach
  have hacc : t.acc = l.accInit := hreach.sameSetup.acc.trans (launch_acc hlaunch)
  rw [← hacc]
  refine ⟨rfl, fun hzero => ?_, fun hneg => ?_, fun hpos => ?_⟩
  · exact ⟨exec_bz_of_zero hzero, exec_bn_of_nonneg (by rw [hzero, s16_zero])⟩
  · exact ⟨exec_bn_of_neg hneg, exec_bz_of_ne_zero (ne_zero_of_s16_ne_zero hneg.ne)⟩
  · exact ⟨exec_bn_of_nonneg hpos.le, exec_bz_of_ne_zero (ne_zero_of_s16_ne_zero hpos.ne')⟩

end Sys2Proof.Machine
end

section
/-! PROOFS. A byte access seen through the Words of the Memory Store (R39, R40), and O30 from it. -/

namespace Sys2Proof.Machine

/-! ### One byte of a Word -/

theorem Memory.readByte_eq_byte_of_readWord (m : Memory) (b : Nat) :
    Memory.readByte m b =
      if b % 2 = 0 then operandOf (Memory.readWord m (b / 2)) else opcodeOf (Memory.readWord m (b / 2)) := by
  obtain ⟨a, rfl | rfl⟩ := Nat.even_or_odd' b
  · rw [if_pos (by omega), show 2 * a / 2 = a by omega, Memory.readByte_even]
  · rw [if_neg (by omega), show (2 * a + 1) / 2 = a by omega, Memory.readByte_odd]

theorem Memory.readWord_writeByte_even {m : Memory} (h : Memory.wf m = true) (a : Nat) (v : Byte) :
    Memory.readWord (Memory.writeByte m (2 * a) v) a = packWord (opcodeOf (Memory.readWord m a)) v := by
  rw [Memory.readWord, Memory.readByte_writeByte h, Memory.readByte_writeByte h, if_neg (by omega), if_pos rfl,
    Memory.readByte_odd]

theorem Memory.readWord_writeByte_odd {m : Memory} (h : Memory.wf m = true) (a : Nat) (v : Byte) :
    Memory.readWord (Memory.writeByte m (2 * a + 1) v) a = packWord v (operandOf (Memory.readWord m a)) := by
  rw [Memory.readWord, Memory.readByte_writeByte h, Memory.readByte_writeByte h, if_pos rfl, if_neg (by omega),
    Memory.readByte_even]

theorem Memory.readWord_writeByte_same {m : Memory} (h : Memory.wf m = true) (b : Nat) (v : Byte) :
    Memory.readWord (Memory.writeByte m b v) (b / 2) =
      if b % 2 = 0 then packWord (opcodeOf (Memory.readWord m (b / 2))) v
      else packWord v (operandOf (Memory.readWord m (b / 2))) := by
  obtain ⟨a, rfl | rfl⟩ := Nat.even_or_odd' b
  · rw [if_pos (by omega), show 2 * a / 2 = a by omega, Memory.readWord_writeByte_even h]
  · rw [if_neg (by omega), show (2 * a + 1) / 2 = a by omega, Memory.readWord_writeByte_odd h]

theorem Memory.readWord_writeByte_other {m : Memory} (h : Memory.wf m = true) {b c : Nat} (hc : c ≠ b / 2) (v : Byte) :
    Memory.readWord (Memory.writeByte m b v) c = Memory.readWord m c := by
  rw [Memory.readWord, Memory.readByte_writeByte h, Memory.readByte_writeByte h, if_neg (by omega), if_neg (by omega),
    Memory.readWord]

/-! ### The obligation -/

/-- Settles O30: an access that is served reads or writes one byte of the store, and by the layout of R39 that byte is half of
Word `b / 2`; an access above 199 stops before the store. -/
theorem byteAccessesTouchOneByte : Obligations.ByteAccessesTouchOneByte := by
  intro s b v hwf
  refine ⟨fun hb hdraw => ⟨?_, ?_⟩, fun hb => ⟨memReadByte_outside hb, memWriteByte_outside hb⟩⟩
  · rw [← Memory.readByte_eq_byte_of_readWord]
    exact memReadByte_ok hb hdraw
  · exact ⟨Memory.writeByte s.mem b v, memWriteByte_ok hb hdraw, Memory.readWord_writeByte_same hwf b v,
      fun _ hc => Memory.readWord_writeByte_other hwf hc v⟩

end Sys2Proof.Machine
end

section
/-! PROOFS. The decoder as the partial inverse of OPC's values (R58, R59), O2 from it (R79), and O5 from the opcode bytes outside
the default OPC (R60). -/

namespace Sys2Proof

open Sys2Proof.Machine

/-! ### The opcode values and the mnemonics they select -/

theorem Opc.value_mem_values (opc : Opc) (m : Mnemonic) : opc.value m ∈ opc.values := by
  cases m <;> simp [Opc.value, Opc.values]

theorem Opc.value_injective {opc : Opc} (h : opc.distinct = true) : Function.Injective opc.value := by
  have hnodup : ([.rdi, .rds, .prti, .prts, .b, .bn, .bz, .halt].map opc.value).Nodup := of_decide_eq_true h
  intro m m' hm
  exact List.inj_on_of_nodup_map hnodup (by cases m <;> simp) (by cases m' <;> simp) hm

theorem value_of_mnemonicOf {opc : Opc} {o : Byte} {m : Mnemonic} (h : mnemonicOf opc o = some m) : opc.value m = o := by
  unfold mnemonicOf at h
  split_ifs at h <;> cases h <;> symm <;> assumption

theorem mnemonicOf_eq_none_iff {opc : Opc} {o : Byte} : mnemonicOf opc o = none ↔ o ∉ opc.values := by
  simp only [mnemonicOf, Opc.values, List.mem_cons, List.not_mem_nil]
  split_ifs <;> simp_all

theorem mnemonicOf_value {opc : Opc} (h : opc.distinct = true) (m : Mnemonic) : mnemonicOf opc (opc.value m) = some m := by
  have hsome : mnemonicOf opc (opc.value m) ≠ none := fun hnone =>
    mnemonicOf_eq_none_iff.mp hnone (opc.value_mem_values m)
  obtain ⟨m', hm'⟩ := Option.ne_none_iff_exists'.mp hsome
  rw [hm', Opc.value_injective h (value_of_mnemonicOf hm')]

/-! ### Decoding an encoding -/

@[simp] theorem opcodeOf_encode (opc : Opc) (i : Instr) : opcodeOf (encode opc i) = opc.value i.mnemonic :=
  (Laws.EncodedFields.fields i opc).1

@[simp] theorem operandOf_encode (opc : Opc) (i : Instr) : operandOf (encode opc i) = i.operand :=
  (Laws.EncodedFields.fields i opc).2

@[simp] theorem Instr.instr_mnemonic_operand (i : Instr) : i.mnemonic.instr i.operand = i := by cases i <;> rfl

theorem decode_encode {opc : Opc} (h : opc.distinct = true) (i : Instr) : decode opc (encode opc i) = .ok i := by
  simp [decode, mnemonicOf_value h]

theorem decodeBytes_encodeBytes {opc : Opc} (h : opc.distinct = true) (i : Instr) :
    decodeBytes opc (encodeBytes opc i) = .ok (i, []) := by
  rw [encodeBytes, decodeBytes, packWord_opcodeOf_operandOf, decode_encode h]

/-- Settles O2: distinct values make the decoder's comparisons find the mnemonic whose value they are given, and the two fields
of a Word are independent. -/
theorem decodeInvertsEncode : Obligations.DecodeInvertsEncode := by
  refine ⟨fun w => ⟨opcodeOf_toNat w, operandOf_toNat w⟩, fun opc i hdistinct => ?_⟩
  have hdec := decode_encode hdistinct i
  exact ⟨hdec, by rw [hdec]; rfl, opcodeOf_encode opc i, operandOf_encode opc i, packWord_toNat _ _,
    decodeBytes_encodeBytes hdistinct i⟩

/-! ### Words outside the default OPC -/

theorem decode_of_opcode_not_mem {opc : Opc} {w : Word} (h : opcodeOf w ∉ opc.values) :
    decode opc w = .error (.illegalOpcode (opcodeOf w)) := by
  simp only [decode, mnemonicOf_eq_none_iff.mpr h]

theorem s16_neg_iff (w : Word) : s16 w < 0 ↔ 128 ≤ (opcodeOf w).toNat := by
  rw [s16, BitVec.toInt_neg_iff, opcodeOf_toNat]
  omega

theorem Opc.default_values_lt {o : Byte} (h : o ∈ Opc.default.values) : o.toNat < 128 := by
  have hall : ∀ o ∈ Opc.default.values, o.toNat < 128 := by decide
  exact hall o h

theorem decode_default_zero : decode Opc.default 0 = .error (.illegalOpcode 0) :=
  decode_of_opcode_not_mem (by decide)

theorem decode_default_of_neg {w : Word} (h : s16 w < 0) : decode Opc.default w = .error (.illegalOpcode (opcodeOf w)) :=
  decode_of_opcode_not_mem fun hmem => absurd (Opc.default_values_lt hmem) (not_lt.mpr ((s16_neg_iff w).mp h))

theorem wordAtIp_of_readByte_zero {s : State} (h : ∀ b, Memory.readByte s.mem b = 0) : s.wordAtIp = 0 := by
  rw [State.wordAtIp, Memory.readWord, h, h]
  rfl

/-- Settles O5: no value of the default OPC is 0 or has bit 7 set, and an all-zero store gives the fetch the Word 0. -/
theorem zeroAndNegativeWordsIllegalByDefault : Obligations.ZeroAndNegativeWordsIllegalByDefault := by
  refine ⟨⟨_, decode_default_zero⟩, fun w hneg => ⟨_, decode_default_of_neg hneg⟩, fun s hopc hfetch hzero => ?_⟩
  have hir : s.afterFetch.ir = 0 := wordAtIp_of_readByte_zero hzero
  have hcfg : s.afterFetch.cfg.opc = Opc.default := hopc
  have hsettled : dispatchSettled s.afterFetch.cfg.opc s.afterFetch.ir = true := by rw [hir]; rfl
  have hdec : decode s.afterFetch.cfg.opc s.afterFetch.ir = .error (.illegalOpcode 0) := by
    rw [hcfg, hir, decode_default_zero]
  rw [step_of_fetchable hfetch, execute_illegal hsettled hdec, hir]
  rfl

end Sys2Proof
end

section
/-! PROOFS. The Words of a packed string, one by one, and O51 from them (R73). -/

namespace Sys2Proof.Machine

/-- Word `i` of a packed string holds characters `2i` and `2i + 1`, or the filler 0 past the end (R73). -/
theorem packString_getElem (p : Text) (i : Nat) (h : i < (packString p).length) :
    (packString p)[i] = packWord (p.getD (2 * i + 1) 0) (p.getD (2 * i) 0) := by
  induction p using packString.induct generalizing i with
  | case1 => exact absurd h (Nat.not_lt_zero i)
  | case2 c =>
    obtain rfl : i = 0 := Nat.lt_one_iff.mp h
    rfl
  | case3 c d rest ih =>
    cases i with
    | zero => rfl
    | succ i => exact ih i (Nat.lt_of_succ_lt_succ h)

/-- Settles O51: the count is `packString_length`, each Word is `packString_getElem`, and a Word's sign is bit 7 of its high
character. -/
theorem stringsPackTwoCharactersAWord : Obligations.StringsPackTwoCharactersAWord := by
  intro p
  refine ⟨packString_length p, fun i h => ?_, fun _ _ => rfl⟩
  have hword := packString_getElem p i h
  exact ⟨hword, by rw [hword, s16_neg_iff, opcodeOf_packWord]⟩

end Sys2Proof.Machine
end

section
/-! PROOFS. IR has one writer, the fetch: every execute phase keeps it (R80 to R84), and O7 from that. -/

namespace Sys2Proof.Machine

/-! ### The execute phase keeps IR -/

theorem advance_ir (s : State) : (advance s).ir = s.ir := by
  obtain ⟨-, -, hadv⟩ | ⟨-, hadv⟩ := advance_cases s <;> rw [hadv]
  exact State.setIp_ir s _

theorem branchTo_ir (a : Byte) (s : State) : (branchTo a s).ir = s.ir := State.setIp_ir s _

theorem exec_ir {i : Instr} {s t : State} (h : exec i s = .next t) : t.ir = s.ir := by
  cases i with
  | rdi a =>
    obtain ⟨-, rfl⟩ | ⟨-, -, rfl⟩ |
      ⟨_, -, -, ⟨-, rfl⟩ | ⟨_, -, ⟨-, rfl⟩ | ⟨-, -, rfl⟩ | ⟨-, -, rfl⟩⟩⟩ := execRdi_cases h <;> simp
  | rds a =>
    obtain ⟨-, rfl⟩ | ⟨-, -, rfl⟩ |
      ⟨_, -, -, ⟨-, rfl⟩ | ⟨_, -, ⟨-, rfl⟩ | ⟨_, -, -, -, rfl⟩ | ⟨-, -, rfl⟩⟩⟩ := execRds_cases h <;> simp
  | prti a => obtain ⟨-, rfl⟩ | ⟨-, -, rfl⟩ | ⟨-, -, rfl⟩ := execPrti_cases h <;> simp
  | prts a => obtain ⟨-, rfl⟩ | ⟨_, -, -, -, rfl⟩ | ⟨-, -, rfl⟩ := execPrts_cases h <;> simp
  | b a => cases h; exact branchTo_ir a s
  | bn a =>
    cases h
    split
    · exact branchTo_ir a s
    · rfl
  | bz a =>
    cases h
    split
    · exact branchTo_ir a s
    · rfl
  | halt x => cases h; rfl

theorem execute_ir {s t : State} (h : execute s = .next t) : t.ir = s.ir := by
  obtain ⟨i, u, -, hexec, rfl⟩ | ⟨e, -, rfl⟩ := execute_cases h
  · rw [advance_ir, exec_ir hexec]
  · exact State.raise_ir s _

/-! ### A step that stops at its fetch -/

theorem step_of_fetch_stop {s t : State} (hrun : s.run = .running) (hhold : s.hold = false) (h : fetch s = .stop t) :
    step s = .next t := by
  simp [step, cycle, hrun, hhold, h]

/-- Settles O7: outside memory the step is the fault its fetch raises, and inside it IR keeps the fetched Word through the
execute phase. -/
theorem fetchLoadsIrOrFaults : Obligations.FetchLoadsIrOrFaults := by
  intro s hrun hhold
  refine ⟨fun hout => step_of_fetch_stop hrun hhold (fetch_outside hout), fun hin hdraw t hstep => ?_⟩
  rw [step_of_fetchable (fetchable_iff.mpr ⟨hrun, hhold, hin, hdraw⟩)] at hstep
  exact execute_ir hstep

end Sys2Proof.Machine
end

section
/-! PROOFS. RDI once its answer is judged good, which reads nothing of the Memory Store, and O15 from it (R91, R92). -/

namespace Sys2Proof.Machine

theorem Memory.writeWord_writeWord_same {m : Memory} (h : Memory.wf m = true) {a : Nat} (ha : a ≤ 99) (v w : Word) :
    Memory.writeWord (Memory.writeWord m a v) a w = Memory.writeWord m a w := by
  have hwf := Memory.wf_writeWord h ha v
  refine Memory.ext_of_wf (Memory.wf_writeWord hwf ha w) (Memory.wf_writeWord h ha w) fun c => ?_
  rw [Memory.readByte_writeWord hwf ha, Memory.readByte_writeWord h ha, Memory.readByte_writeWord h ha]
  split_ifs <;> rfl

theorem fitsInt32_iff {n : Int} : fitsInt32 n = true ↔ -2 ^ 31 ≤ n ∧ n ≤ 2 ^ 31 - 1 := decide_eq_true_iff

/-! ### RDI with an integer it accepts -/

section AcceptedInteger
variable {s : State} {a : Byte} {ans : Answer} {n : Int}
  (ha : wordAddr a ≤ 99) (hans : s.input[s.inputPos]? = some ans) (hint : ans.asInt = .int n) (hfits : fitsInt32 n = true)
include ha hans hint hfits

theorem exec_rdi_of_answer :
    exec (.rdi a) s = (memWriteWord (wordAddr a) (wrap16 n) s.takeAnswer).finish := by
  simp [exec, execRdi, ha, askInput_some hans, hint, hfits]

theorem exec_rdi_ok (hdraw : drawAllows 1 s.storeDraw = true) :
    exec (.rdi a) s =
      .next ((s.takeAnswer.setStoreDraw (drawAfter 1 s.storeDraw)).setMem
        (Memory.writeWord s.mem (wordAddr a) (wrap16 n))) := by
  rw [exec_rdi_of_answer ha hans hint hfits, memWriteWord_ok (s := s.takeAnswer) ha hdraw]
  rfl

theorem exec_rdi_storeFault (hdraw : s.storeDraw = some 0) :
    exec (.rdi a) s = .next (s.takeAnswer.raise (.storeFault s.ip)) := by
  rw [exec_rdi_of_answer ha hans hint hfits, memWriteWord_storeFault (s := s.takeAnswer) ha hdraw]
  rfl

end AcceptedInteger

/-- Settles O15: RDI reaches the store only by its write, which covers both bytes of the Word, and takes the answer before it. -/
theorem rdiNeverReadsItsDestination : Obligations.RdiNeverReadsItsDestination := by
  intro s a ans n hwf ha hans hint hmin hmax
  have hfits := fitsInt32_iff.mpr ⟨hmin, hmax⟩
  refine ⟨fun hdraw => ?_, fun hdraw => ⟨_, exec_rdi_storeFault ha hans hint hfits hdraw, rfl, rfl⟩⟩
  have hexec := exec_rdi_ok ha hans hint hfits hdraw
  refine ⟨fun old => ?_, _, hexec, Memory.readWord_writeWord_same hwf ha _, rfl⟩
  have hold := exec_rdi_ok (s := s.setMem (Memory.writeWord s.mem (wordAddr a) old)) ha hans hint hfits hdraw
  rw [State.setMem_mem, Memory.writeWord_writeWord_same hwf ha] at hold
  exact hold.trans hexec.symm

end Sys2Proof.Machine
end

section
/-! PROOFS. The execute phases of the I/O opcodes keep IP, a step that fetches is one execute phase and the advance, and O22
from the two (R84, R98). -/

namespace Sys2Proof.Machine

theorem exec_io_ip {i : Instr} {s t : State} (hio : i.mnemonic ∈ [Mnemonic.rdi, .rds, .prti, .prts])
    (h : exec i s = .next t) : t.ip = s.ip := by
  cases i with
  | rdi a =>
    obtain ⟨-, rfl⟩ | ⟨-, -, rfl⟩ |
      ⟨_, -, -, ⟨-, rfl⟩ | ⟨_, -, ⟨-, rfl⟩ | ⟨-, -, rfl⟩ | ⟨-, -, rfl⟩⟩⟩ := execRdi_cases h <;> rfl
  | rds a =>
    obtain ⟨-, rfl⟩ | ⟨-, -, rfl⟩ |
      ⟨_, -, -, ⟨-, rfl⟩ | ⟨_, -, ⟨-, rfl⟩ | ⟨_, -, -, -, rfl⟩ | ⟨-, -, rfl⟩⟩⟩ := execRds_cases h <;> rfl
  | prti a => obtain ⟨-, rfl⟩ | ⟨-, -, rfl⟩ | ⟨-, -, rfl⟩ := execPrti_cases h <;> rfl
  | prts a => obtain ⟨-, rfl⟩ | ⟨_, -, -, -, rfl⟩ | ⟨-, -, rfl⟩ := execPrts_cases h <;> rfl
  | b | bn | bz | halt => simp [Instr.mnemonic] at hio

@[simp] theorem State.afterFetch_ip (s : State) : s.afterFetch.ip = s.ip := rfl

/-- The step of a fetched instruction is its execute phase after the fetch, and then the advance. -/
theorem step_cases_of_willRun {s t : State} {i : Instr} (hrun : s.willRun i) (h : step s = .next t) :
    ∃ u, exec i s.afterFetch = .next u ∧ t = advance u := by
  obtain ⟨hfetch, -, hdec⟩ := hrun
  rw [step_of_fetchable hfetch] at h
  obtain ⟨j, u, hj, hexec, rfl⟩ | ⟨e, he, -⟩ := execute_cases h
  · cases hdec.symm.trans hj
    exact ⟨u, hexec, rfl⟩
  · cases hdec.symm.trans he

/-- Settles O22: the execute phase leaves the three registers alone, so IP moves by the advance or not at all. -/
theorem ioLeavesRegistersAndAdvances : Obligations.IoLeavesRegistersAndAdvances := by
  intro s i hio
  refine ⟨fun t hexec => ⟨(exec_sameSetup hexec).acc, exec_ir hexec, exec_io_ip hio hexec⟩, fun t hrun hstep => ?_⟩
  refine ⟨(step_sameSetup hstep).acc, ?_⟩
  obtain ⟨u, hexec, rfl⟩ := step_cases_of_willRun hrun hstep
  have hip : u.ip = s.ip := (exec_io_ip hio hexec).trans s.afterFetch_ip
  refine ⟨(advance_ir u).trans (exec_ir hexec), ?_⟩
  obtain ⟨hr, hh, hadv⟩ | ⟨hoff, hadv⟩ := advance_cases u <;> rw [hadv]
  · refine ⟨fun _ _ => by rw [State.setIp_ip, hip], fun hoff => ?_⟩
    simp [hr, hh] at hoff
  · refine ⟨fun hr hh => ?_, fun _ => hip⟩
    simp [hr, hh] at hoff

end Sys2Proof.Machine
end

section
/-! PROOFS. The three ways of PRTI, one for each way of its memory read, and O18 from them (R95). -/

namespace Sys2Proof.Machine

theorem exec_prti_ok {a : Byte} {s : State} (ha : wordAddr a ≤ 99) (hdraw : drawAllows 1 s.storeDraw = true) :
    exec (.prti a) s =
      .next ((s.setStoreDraw (drawAfter 1 s.storeDraw)).emit (.int (s16 (Memory.readWord s.mem (wordAddr a))))) := by
  rw [exec, execPrti, memReadWord_ok ha hdraw, Access.bind_ok, Access.finish_ok]

theorem exec_prti_outside {a : Byte} {s : State} (ha : 99 < wordAddr a) :
    exec (.prti a) s = .next (s.raise (.operandOutOfRange s.ip (wordAddr a))) := by
  rw [exec, execPrti, memReadWord_outside ha, Access.bind_stop, Access.finish_stop]

theorem exec_prti_storeFault {a : Byte} {s : State} (ha : wordAddr a ≤ 99) (hdraw : s.storeDraw = some 0) :
    exec (.prti a) s = .next (s.raise (.storeFault s.ip)) := by
  rw [exec, execPrti, memReadWord_storeFault ha hdraw, Access.bind_stop, Access.finish_stop]

/-- Settles O18: the Word is the opcode value beside the operand, and PRTI emits what its read gives or ends where it stops. -/
theorem prtiEmitsTheWord : Obligations.PrtiEmitsTheWord := fun _ _ =>
  ⟨rfl, packWord_toNat _ _, exec_prti_ok, exec_prti_outside, exec_prti_storeFault⟩

end Sys2Proof.Machine
end

section
/-! PROOFS. A taken branch, whichever of the three it is: its execute phase, its whole step, and the fault of the next fetch when
its target lies outside memory; O26 and O27 from them (R99, R103). -/

namespace Sys2Proof.Machine

/-! ### A step that fetches and one that faults at its fetch -/

theorem step_of_willRun {s t : State} {i : Instr} (hrun : s.willRun i) (hexec : exec i s.afterFetch = .next t) :
    step s = .next (advance t) := by
  obtain ⟨hfetch, hsettled, hdec⟩ := hrun
  exact (step_of_fetchable hfetch).trans (execute_of_decode hsettled hdec hexec)

theorem State.willRun.running_not_held {s : State} {i : Instr} (h : s.willRun i) : s.run = .running ∧ s.hold = false := by
  obtain ⟨hfetch, -, -⟩ := h
  obtain ⟨hrun, hhold, -, -⟩ := fetchable_iff.mp hfetch
  exact ⟨hrun, hhold⟩

theorem step_of_ip_outside {s : State} (hrun : s.run = .running) (hhold : s.hold = false) (hip : 99 < s.ip.toNat) :
    step s = .next { s with run := .faulted (.fetchOutOfRange s.ip) } :=
  step_of_fetch_stop hrun hhold (fetch_outside hip)

/-! ### The taken branch -/

theorem exec_of_takesBranch {s : State} {i : Instr} {a : Byte} (h : s.takesBranch i a) :
    exec i s = .next { s with ip := BitVec.ofNat 16 a.toNat - 1 } := by
  obtain rfl | ⟨rfl, hneg⟩ | ⟨rfl, hzero⟩ := h
  · exact congrArg Host.Outcome.next (branchTo_eq a s)
  · exact exec_bn_of_neg hneg
  · exact exec_bz_of_zero hzero

/-- The fetch keeps ACC, so it does not change whether a branch is taken. -/
theorem State.takesBranch.afterFetch {s : State} {i : Instr} {a : Byte} (h : s.takesBranch i a) :
    s.afterFetch.takesBranch i a := h

/-- The advance makes up for the one that `branch_to` takes off, at `w = 0` by the wrap of both (R99). -/
theorem advance_of_ip_sub_one {s : State} (hrun : s.run = .running) (hhold : s.hold = false) (w : Word) :
    advance { s with ip := w - 1 } = { s with ip := w } := by
  rw [advance_on (s := { s with ip := w - 1 }) hrun hhold, State.setIp, BitVec.sub_add_cancel]

theorem step_of_takesBranch {s : State} {i : Instr} {a : Byte} (h : s.takesBranch i a) (hrun : s.willRun i) :
    step s = .next { s.afterFetch with ip := BitVec.ofNat 16 a.toNat } := by
  obtain ⟨hrunning, hhold⟩ := hrun.running_not_held
  rw [step_of_willRun hrun (exec_of_takesBranch h.afterFetch), advance_of_ip_sub_one (s := s.afterFetch) hrunning hhold]

theorem toNat_ofNat_byte (a : Byte) : (BitVec.ofNat 16 a.toNat).toNat = a.toNat := by
  rw [BitVec.toNat_ofNat]
  omega

theorem ofNat_byte_sub_one (a : Byte) :
    BitVec.ofNat 16 a.toNat - 1 = BitVec.ofNat 16 ((a.toNat + 65535) % 65536) := by
  bv_omega

/-- Settles O26: the three branches share one execute phase when taken, and its step ends at the operand. -/
theorem takenBranchReachesItsOperand : Obligations.TakenBranchReachesItsOperand := by
  intro s i a htaken
  refine ⟨?_, fun hrun => ⟨_, step_of_takesBranch htaken hrun, toNat_ofNat_byte a⟩⟩
  rw [exec_of_takesBranch htaken, ofNat_byte_sub_one]

/-- Settles O27: the branch checks nothing about its target, so the engine is left running there and the next fetch faults. -/
theorem branchOutsideFaultsAtNextFetch : Obligations.BranchOutsideFaultsAtNextFetch := by
  intro s i a htaken hrun hout
  obtain ⟨hrunning, hhold⟩ := hrun.running_not_held
  have hip := toNat_ofNat_byte a
  exact ⟨_, step_of_takesBranch htaken hrun, hrunning, hip, step_of_ip_outside hrunning hhold (by rw [hip]; omega)⟩

end Sys2Proof.Machine
end

section
/-! PROOFS. The execute phase of END and its step, which the advance leaves alone; Words the loader copies unchanged; O28 from
these (R88, R105, R135). -/

namespace Sys2Proof.Machine

/-! ### END as an instruction -/

theorem exec_halt (x : Byte) (s : State) :
    exec (.halt x) s = .next { s with output := s.output ++ [.halt s.ip s.ir s.acc], run := .halted } := rfl

theorem advance_of_halted {s : State} (h : s.run = .halted) : advance s = s :=
  advance_off (.inl (by simp [h]))

theorem step_of_halt {s : State} {x : Byte} (hrun : s.willRun (.halt x)) :
    step s = .next { s.afterFetch with output := s.output ++ [.halt s.ip s.wordAtIp s.acc], run := .halted } := by
  rw [step_of_willRun hrun (exec_halt x s.afterFetch), advance_of_halted rfl]
  rfl

/-! ### END before the loader -/

theorem reloc_of_not_memoryReferencing {opc : Opc} {w : Word} (base : Nat)
    (h : opcodeOf w ∉ [opc.rdi, opc.rds, opc.prti, opc.prts, opc.b, opc.bn, opc.bz]) : reloc opc base w = some w :=
  if_neg (mt of_decide_eq_true h)

theorem Opc.halt_not_memoryReferencing {opc : Opc} (h : opc.distinct = true) :
    opc.halt ∉ [opc.rdi, opc.rds, opc.prti, opc.prts, opc.b, opc.bn, opc.bz] := fun hmem =>
  have hnodup : ([opc.rdi, opc.rds, opc.prti, opc.prts, opc.b, opc.bn, opc.bz] ++ [opc.halt]).Nodup := of_decide_eq_true h
  List.disjoint_of_nodup_append hnodup hmem (List.mem_singleton_self _)

theorem reloc_encode_halt {opc : Opc} (h : opc.distinct = true) (base : Nat) (x : Byte) :
    reloc opc base (encode opc (.halt x)) = some (encode opc (.halt x)) := by
  refine reloc_of_not_memoryReferencing base ?_
  rw [opcodeOf_encode]
  exact Opc.halt_not_memoryReferencing h

/-- Settles O28: END's execute phase ends the run, so its step has no advance, and END's value is not among the seven the loader
relocates. -/
theorem endReportsAndHalts : Obligations.EndReportsAndHalts := fun _ x =>
  ⟨rfl, packWord_toNat _ _, exec_halt x _, step_of_halt, fun hdistinct base => reloc_encode_halt hdistinct base x⟩

end Sys2Proof.Machine
end

section
/-! PROOFS. The three ways of `reloc`, a relocated stream Word by Word, and what a load that is not refused comes to; O46 and O48
from these (R133 to R136). -/

namespace Sys2Proof.Machine

/-! ### One relocated Word -/

section MemoryReferencing
variable {opc : Opc} {base : Nat} {w : Word}
  (hop : opcodeOf w ∈ [opc.rdi, opc.rds, opc.prti, opc.prts, opc.b, opc.bn, opc.bz])
include hop

theorem reloc_of_fits (hfits : (operandOf w).toNat + base ≤ 255) :
    reloc opc base w = some (packWord (opcodeOf w) (BitVec.ofNat 8 ((operandOf w).toNat + base))) :=
  (if_pos (decide_eq_true hop)).trans (if_pos hfits)

theorem reloc_of_overflows (hover : 255 < (operandOf w).toNat + base) : reloc opc base w = none :=
  (if_pos (decide_eq_true hop)).trans (if_neg hover.not_ge)

end MemoryReferencing

/-- Settles O48: the seven opcodes have the two ways of `reloc` that pack or refuse, every other value the third, and END's is
such a value. -/
theorem relocationShiftsOperands : Obligations.RelocationShiftsOperands := by
  intro opc base w
  refine ⟨fun hop => ⟨fun hfits => ?_, reloc_of_overflows hop⟩, reloc_of_not_memoryReferencing base,
    fun hdistinct hhalt => reloc_of_not_memoryReferencing base (hhalt ▸ Opc.halt_not_memoryReferencing hdistinct)⟩
  refine ⟨_, reloc_of_fits hop hfits, opcodeOf_packWord _ _, ?_⟩
  rw [operandOf_packWord, BitVec.toNat_ofNat, Nat.mod_eq_of_lt (Nat.lt_succ_of_le hfits)]

/-! ### A relocated stream -/

theorem relocAll_cons_eq_some_iff {opc : Opc} {base : Nat} {w : Word} {ws vs : List Word} :
    relocAll opc base (w :: ws) = some vs ↔
      ∃ v us, reloc opc base w = some v ∧ relocAll opc base ws = some us ∧ vs = v :: us := by
  cases hw : reloc opc base w <;> cases hws : relocAll opc base ws <;> simp [relocAll, hw, hws, eq_comm]

theorem forall₂_reloc_of_relocAll {opc : Opc} {base : Nat} {ws vs : List Word} (h : relocAll opc base ws = some vs) :
    List.Forall₂ (fun w v => reloc opc base w = some v) ws vs := by
  induction ws generalizing vs with
  | nil => cases h; exact .nil
  | cons w ws ih =>
    obtain ⟨v, us, hw, hws, rfl⟩ := relocAll_cons_eq_some_iff.mp h
    exact .cons hw (ih hws)

/-! ### A load -/

theorem load_eq_ok_iff {opc : Opc} {base : Nat} {ws : List Word} {m m' : Memory} :
    load opc base ws m = .ok m' ↔
      base ≤ 99 ∧ base + ws.length ≤ 100 ∧ ∃ vs, relocAll opc base ws = some vs ∧ m' = writeWords m base vs := by
  unfold load
  split
  case isTrue hrange =>
    obtain ⟨hbase, hfits⟩ := hrange
    have hbase99 : base ≤ 99 := of_decide_eq_true hbase
    cases relocAll opc base ws <;> simp [hbase99, hfits, eq_comm]
  case isFalse hrange =>
    exact ⟨nofun, fun ⟨hbase, hfits, _⟩ => absurd ⟨decide_eq_true hbase, hfits⟩ hrange⟩

/-- Settles O46: the stream a load writes is `ws` relocated Word by Word, so `Memory.readWord_writeWords` says what each address
holds. -/
theorem loadWritesTheRelocatedStream : Obligations.LoadWritesTheRelocatedStream := by
  intro opc base ws m m' hwf hload
  obtain ⟨-, hfits, vs, hvs, rfl⟩ := load_eq_ok_iff.mp hload
  have hreloc := forall₂_reloc_of_relocAll hvs
  have hlen : ws.length = vs.length := hreloc.length_eq
  rw [hlen] at hfits
  refine ⟨Memory.wf_writeWords hwf hfits, fun i hi => ?_, fun c hc => ?_⟩
  · have hi' : i < vs.length := hlen ▸ hi
    have hread : Memory.readWord (writeWords m base vs) (base + i) = vs[i] := by
      rw [Memory.readWord_writeWords hwf hfits, dif_pos (by omega)]
      simp only [Nat.add_sub_cancel_left]
    rw [hread]
    exact hreloc.get hi hi'
  · rw [Memory.readWord_writeWords hwf hfits, dif_neg (by omega)]

end Sys2Proof.Machine
end

section
/-! PROOFS. Everything an execute phase can come to, in the order of its effects rather than of the opcodes, and everything a
step can: the case lists from which the claims about every step follow, and O34 and O56 from those of a fault (R80 to R88, R109 to
R115). -/

namespace Sys2Proof.Machine

/-! ### The execute phase -/

/-- The instruction has passed its operand check and asks the host for an answer (R91, R93). -/
def State.asksInput (s : State) (i : Instr) : Prop :=
  ∃ a, (i = .rdi a ∧ wordAddr a ≤ 99) ∨ (i = .rds a ∧ blockFits s.cfg a = true)

/-- `s.FaultsIn i f t`: the execute phase of `i` from `s` raises `f` and leaves `t`, with what R113 says stays done. -/
inductive State.FaultsIn (s : State) : Instr → EngineFault → State → Prop
  | operand {i a} (hcheck : ¬ s.asksInput i) :
      s.FaultsIn i (.operandOutOfRange s.ip a) (s.raise (.operandOutOfRange s.ip a))
  | input {i ans} (hans : s.input[s.inputPos]? = some ans) :
      s.FaultsIn i (.inputError s.ip) (s.takeAnswer.raise (.inputError s.ip))
  | tooLong {i ans n} (hans : s.input[s.inputPos]? = some ans) :
      s.FaultsIn i (.inputTooLong s.ip n) (s.takeAnswer.raise (.inputTooLong s.ip n))
  | storeAtRdi {a ans} (hans : s.input[s.inputPos]? = some ans) :
      s.FaultsIn (.rdi a) (.storeFault s.ip) (s.takeAnswer.raise (.storeFault s.ip))
  | storeAtPrint {i a d} (hprint : i = .prti a ∨ i = .prts a) :
      s.FaultsIn i (.storeFault s.ip) ((s.setStoreDraw d).raise (.storeFault s.ip))
  | storeAtRds {a ans l k} (hfits : blockFits s.cfg a = true) (hans : s.input[s.inputPos]? = some ans)
      (hline : ans.asLine = .line l) (hroom : l.length + 1 ≤ s.cfg.strBlock) (hk : k ≤ l.length)
      (hdraw : s.storeDraw = some k) :
      s.FaultsIn (.rds a) (.storeFault s.ip)
        (((s.takeAnswer.setStoreDraw (some 0)).setMem (Memory.writeBytes s.mem (byteAddr a) (l.take k))).raise
          (.storeFault s.ip))

/-- `s.ExecTo i t`: the execute phase of `i` from `s` leaves `t`. -/
inductive State.ExecTo (s : State) : Instr → State → Prop
  | faults {i f t} (hfault : s.FaultsIn i f t) : s.ExecTo i t
  | holds {i} (hasks : s.asksInput i) (hnone : s.input[s.inputPos]? = none) : s.ExecTo i (s.setHold true)
  | storesWord {a ans v d} (ha : wordAddr a ≤ 99) (hans : s.input[s.inputPos]? = some ans) :
      s.ExecTo (.rdi a) ((s.takeAnswer.setStoreDraw d).setMem (Memory.writeWord s.mem (wordAddr a) v))
  | storesLine {a ans vs d} (hfits : blockFits s.cfg a = true) (hans : s.input[s.inputPos]? = some ans)
      (hlen : vs.length ≤ s.cfg.strBlock) :
      s.ExecTo (.rds a) ((s.takeAnswer.setStoreDraw d).setMem (Memory.writeBytes s.mem (byteAddr a) vs))
  | prints {i a e d} (hprint : i = .prti a ∨ i = .prts a) (hhalt : e.isHalt = false) (hrange : e.inRange = true) :
      s.ExecTo i ((s.setStoreDraw d).emit e)
  | branches {i a} (htaken : s.takesBranch i a) : s.ExecTo i (branchTo a s)
  | fallsThrough {i a} (hcond : i = .bn a ∨ i = .bz a) : s.ExecTo i s
  | halts {x} : s.ExecTo (.halt x) ((s.emit (.halt s.ip s.ir s.acc)).setRun .halted)

theorem s16_inRange (w : Word) : (Event.int (s16 w)).inRange = true := by
  have hle := BitVec.le_toInt w
  have hlt := BitVec.toInt_lt (x := w)
  refine decide_eq_true ⟨?_, ?_⟩ <;> rw [s16] <;> omega

theorem execRdi_execTo {a : Byte} {s t : State} (h : execRdi a s = .next t) : s.ExecTo (.rdi a) t := by
  obtain ⟨hout, rfl⟩ | ⟨ha, hnone, rfl⟩ |
    ⟨ans, ha, hans, ⟨-, rfl⟩ | ⟨n, -, ⟨-, rfl⟩ | ⟨-, -, rfl⟩ | ⟨-, -, rfl⟩⟩⟩ := execRdi_cases h
  · exact .faults (.operand (by simp [State.asksInput, hout]))
  · exact .holds ⟨a, .inl ⟨rfl, ha⟩⟩ hnone
  · exact .faults (.input hans)
  · exact .faults (.input hans)
  · exact .faults (.storeAtRdi hans)
  · exact .storesWord ha hans

theorem execRds_execTo {a : Byte} {s t : State} (h : execRds a s = .next t) : s.ExecTo (.rds a) t := by
  obtain ⟨hout, rfl⟩ | ⟨hfits, hnone, rfl⟩ |
    ⟨ans, hfits, hans, ⟨-, rfl⟩ | ⟨l, hline, ⟨-, rfl⟩ | ⟨k, hroom, hdraw, hk, rfl⟩ | ⟨hroom, -, rfl⟩⟩⟩ := execRds_cases h
  · exact .faults (.operand (by simp [State.asksInput, hout]))
  · exact .holds ⟨a, .inr ⟨rfl, hfits⟩⟩ hnone
  · exact .faults (.input hans)
  · exact .faults (.tooLong hans)
  · have hk : k ≤ l.length := Nat.le_of_lt_succ hk
    rw [List.take_append_of_le_length hk]
    exact .faults (.storeAtRds hfits hans hline hroom hk hdraw)
  · exact .storesLine hfits hans (by simpa using hroom)

theorem execPrti_execTo {a : Byte} {s t : State} (h : execPrti a s = .next t) : s.ExecTo (.prti a) t := by
  obtain ⟨-, rfl⟩ | ⟨-, -, rfl⟩ | ⟨-, -, rfl⟩ := execPrti_cases h
  · exact .faults (.operand (by simp [State.asksInput]))
  · exact .faults (.storeAtPrint (d := s.storeDraw) (.inl rfl))
  · exact .prints (.inl rfl) rfl (s16_inRange _)

theorem execPrts_execTo {a : Byte} {s t : State} (h : execPrts a s = .next t) : s.ExecTo (.prts a) t := by
  obtain ⟨-, rfl⟩ | ⟨_, -, -, -, rfl⟩ | ⟨-, -, rfl⟩ := execPrts_cases h
  · exact .faults (.operand (by simp [State.asksInput]))
  · exact .faults (.storeAtPrint (.inr rfl))
  · exact .prints (.inr rfl) rfl rfl

theorem exec_execTo {i : Instr} {s t : State} (h : exec i s = .next t) : s.ExecTo i t := by
  cases i with
  | rdi a => exact execRdi_execTo h
  | rds a => exact execRds_execTo h
  | prti a => exact execPrti_execTo h
  | prts a => exact execPrts_execTo h
  | b a => cases h; exact .branches (.inl rfl)
  | bn a =>
    cases h
    split
    case isTrue hneg => exact .branches (.inr (.inl ⟨rfl, of_decide_eq_true hneg⟩))
    case isFalse => exact .fallsThrough (.inl rfl)
  | bz a =>
    cases h
    split
    case isTrue hzero => exact .branches (.inr (.inr ⟨rfl, of_decide_eq_true hzero⟩))
    case isFalse => exact .fallsThrough (.inr rfl)
  | halt x => cases h; exact .halts

theorem State.FaultsIn.run {s t : State} {i : Instr} {f : EngineFault} (h : s.FaultsIn i f t) : t.run = .faulted f := by
  cases h <;> rfl

/-- Of what an execute phase can come to, only a fault leaves a running engine faulted. -/
theorem State.ExecTo.faultsIn {s t : State} {i : Instr} {f : EngineFault} (h : s.ExecTo i t) (hrun : s.run = .running)
    (hf : t.run = .faulted f) : s.FaultsIn i f t := by
  cases h with
  | faults hfault =>
    cases hfault.run.symm.trans hf
    exact hfault
  | halts => cases hf
  | holds | storesWord | storesLine | prints | branches | fallsThrough => cases hrun.symm.trans hf

/-! ### The step -/

/-- The state in which the execute phase of a step begins: `s` itself when the step goes on after a hold, otherwise `s` after its
fetch (R80, R88). -/
def State.atExecute (s : State) : State :=
  { s with
    ir := if s.hold then s.ir else s.wordAtIp
    storeDraw := if s.hold then s.storeDraw else drawAfter 1 s.storeDraw }

theorem State.atExecute_of_hold {s : State} (h : s.hold = true) : s.atExecute = s := by
  simp only [State.atExecute, h, if_true]
  rw [← h]

theorem State.atExecute_of_not_hold {s : State} (h : s.hold = false) : s.atExecute = s.afterFetch := by
  simp [State.atExecute, State.afterFetch, h]

/-- The step has its fetch behind it: it goes on after a hold, or its own fetch succeeds (R80, R88). -/
def State.pastFetch (s : State) : Prop :=
  s.hold = true ∨ s.ip.toNat ≤ 99 ∧ drawAllows 1 s.storeDraw = true

/-- `s.StepTo t`: the step from `s` leads to `t`. -/
inductive State.StepTo (s : State) : State → Prop
  | fetchOutside (hhold : s.hold = false) (hip : 99 < s.ip.toNat) : s.StepTo (s.raise (.fetchOutOfRange s.ip))
  | fetchFails (hhold : s.hold = false) (hip : s.ip.toNat ≤ 99) (hdraw : s.storeDraw = some 0) :
      s.StepTo (s.raise (.storeFault s.ip))
  | illegal {e} (hpast : s.pastFetch) (hdec : decode s.cfg.opc s.atExecute.ir = .error e) :
      s.StepTo (s.atExecute.raise (.illegalOpcode s.ip s.atExecute.ir))
  | runs {i u} (hpast : s.pastFetch) (hdec : decode s.cfg.opc s.atExecute.ir = .ok i) (hexec : exec i s.atExecute = .next u) :
      s.StepTo (advance u)

theorem stepTo_of_execute {s t : State} (hpast : s.pastFetch) (h : execute s.atExecute = .next t) : s.StepTo t := by
  obtain ⟨i, u, hdec, hexec, rfl⟩ | ⟨e, hdec, rfl⟩ := execute_cases h
  · exact .runs hpast hdec hexec
  · exact .illegal hpast hdec

theorem step_next {s t : State} (h : step s = .next t) : s.run = .running ∧ s.StepTo t := by
  obtain ⟨hrun, ⟨hhold, hexec⟩ | ⟨hhold, hip, hdraw, hexec⟩ | ⟨hhold, hip, rfl⟩ | ⟨hhold, hip, hdraw, rfl⟩⟩ := step_cases h
  · rw [← State.atExecute_of_hold hhold] at hexec
    exact ⟨hrun, stepTo_of_execute (.inl hhold) hexec⟩
  · have hstart : execute s.afterFetch = .next t := hexec
    rw [← State.atExecute_of_not_hold hhold] at hstart
    exact ⟨hrun, stepTo_of_execute (.inr ⟨hip, hdraw⟩) hstart⟩
  · exact ⟨hrun, .fetchOutside hhold hip⟩
  · exact ⟨hrun, .fetchFails hhold hip hdraw⟩

/-! ### What the advance leaves alone -/

theorem advance_eq_setIp (s : State) : ∃ v, advance s = s.setIp v := by
  obtain ⟨-, -, hadv⟩ | ⟨-, hadv⟩ := advance_cases s
  · exact ⟨_, hadv⟩
  · exact ⟨s.ip, hadv⟩

@[simp] theorem advance_run (s : State) : (advance s).run = s.run := by
  obtain ⟨v, hadv⟩ := advance_eq_setIp s; rw [hadv, State.setIp_run]

@[simp] theorem advance_mem (s : State) : (advance s).mem = s.mem := by
  obtain ⟨v, hadv⟩ := advance_eq_setIp s; rw [hadv, State.setIp_mem]

@[simp] theorem advance_inputPos (s : State) : (advance s).inputPos = s.inputPos := by
  obtain ⟨v, hadv⟩ := advance_eq_setIp s; rw [hadv, State.setIp_inputPos]

@[simp] theorem advance_output (s : State) : (advance s).output = s.output := by
  obtain ⟨v, hadv⟩ := advance_eq_setIp s; rw [hadv, State.setIp_output]

@[simp] theorem advance_hold (s : State) : (advance s).hold = s.hold := by
  obtain ⟨v, hadv⟩ := advance_eq_setIp s; rw [hadv, State.setIp_hold]

/-! ### The parts of a faulting step -/

theorem step_of_faulted {s : State} {f : EngineFault} (h : s.run = .faulted f) : step s = .fault (.faulted f) := by
  simp only [step, cycle, h]

/-- `s.StepFaults f t`: the step from `s` raises `f` and leaves `t`. -/
inductive State.StepFaults (s : State) : EngineFault → State → Prop
  | fetchOutside (hhold : s.hold = false) (hip : 99 < s.ip.toNat) :
      s.StepFaults (.fetchOutOfRange s.ip) (s.raise (.fetchOutOfRange s.ip))
  | fetchFails (hhold : s.hold = false) (hip : s.ip.toNat ≤ 99) (hdraw : s.storeDraw = some 0) :
      s.StepFaults (.storeFault s.ip) (s.raise (.storeFault s.ip))
  | illegal {e} (hpast : s.pastFetch) (hdec : decode s.cfg.opc s.atExecute.ir = .error e) :
      s.StepFaults (.illegalOpcode s.ip s.atExecute.ir) (s.atExecute.raise (.illegalOpcode s.ip s.atExecute.ir))
  | execute {i f t} (hpast : s.pastFetch) (hdec : decode s.cfg.opc s.atExecute.ir = .ok i)
      (hfault : s.atExecute.FaultsIn i f t) : s.StepFaults f t

theorem step_faults {s t : State} {f : EngineFault} (h : step s = .next t) (hf : t.run = .faulted f) : s.StepFaults f t := by
  obtain ⟨hrun, hto⟩ := step_next h
  cases hto with
  | fetchOutside hhold hip => cases hf; exact .fetchOutside hhold hip
  | fetchFails hhold hip hdraw => cases hf; exact .fetchFails hhold hip hdraw
  | illegal hpast hdec => cases hf; exact .illegal hpast hdec
  | runs hpast hdec hexec =>
    rw [advance_run] at hf
    rw [advance_off (.inl (by simp [hf]))]
    exact .execute hpast hdec ((exec_execTo hexec).faultsIn hrun hf)

theorem State.FaultsIn.frame {s t : State} {i : Instr} {f : EngineFault} (h : s.FaultsIn i f t) :
    f.ip = s.ip ∧ t.ip = s.ip ∧ t.ir = s.ir ∧ t.output = s.output ∧ s.inputPos ≤ t.inputPos := by
  cases h <;> simp [EngineFault.ip]

/-- IR after a fault: the Word the step fetched, or the old value when the step made no fetch (R24, R113). -/
theorem State.StepFaults.ir {s t : State} {f : EngineFault} (h : s.StepFaults f t) :
    t.ir = if s.hold = false ∧ s.ip.toNat ≤ 99 ∧ drawAllows 1 s.storeDraw = true then s.wordAtIp else s.ir := by
  have hpastIr : s.pastFetch → s.atExecute.ir =
      if s.hold = false ∧ s.ip.toNat ≤ 99 ∧ drawAllows 1 s.storeDraw = true then s.wordAtIp else s.ir := by
    rintro (hhold | hfetch)
    · simp [State.atExecute, hhold]
    · cases hhold : s.hold <;> simp [State.atExecute, hhold, hfetch]
  cases h with
  | fetchOutside hhold hip => rw [if_neg (by omega)]; rfl
  | fetchFails hhold hip hdraw => rw [if_neg (by simp [hdraw])]; rfl
  | illegal hpast => exact hpastIr hpast
  | execute hpast hdec hfault =>
    obtain ⟨-, -, hir, -, -⟩ := hfault.frame
    exact hir.trans (hpastIr hpast)

/-- The draw before a step, from the accesses left at its execute phase: one more when the step made a fetch of its own (R112). -/
theorem State.pastFetch.storeDraw {s : State} {k : Nat} (h : s.pastFetch) (hdraw : s.atExecute.storeDraw = some k) :
    s.storeDraw = some (if s.hold then k else k + 1) := by
  cases hhold : s.hold
  · obtain ⟨-, hallows⟩ := h.resolve_left (by simp [hhold])
    rw [State.atExecute_of_not_hold hhold] at hdraw
    obtain ⟨d, hd, rfl⟩ := Option.map_eq_some_iff.mp hdraw
    rw [hd, drawAllows_some] at hallows
    simp [hd, Nat.sub_add_cancel hallows]
  · rw [State.atExecute_of_hold hhold] at hdraw
    simpa using hdraw

theorem State.pastFetch.storeDraw_ne_zero {s : State} (h : s.pastFetch) (hhold : s.hold = false) : s.storeDraw ≠ some 0 := by
  obtain ⟨-, hallows⟩ := h.resolve_left (by simp [hhold])
  rintro h0
  simp [h0] at hallows

/-- What a fault leaves of IP, the output and the input position. -/
theorem State.StepFaults.frame {s t : State} {f : EngineFault} (h : s.StepFaults f t) :
    f.ip = s.ip ∧ t.ip = s.ip ∧ t.output = s.output ∧ s.inputPos ≤ t.inputPos := by
  cases h with
  | fetchOutside | fetchFails | illegal => exact ⟨rfl, rfl, rfl, le_rfl⟩
  | execute hpast hdec hfault =>
    obtain ⟨hfip, hip, -, hout, hpos⟩ := hfault.frame
    exact ⟨hfip, hip, hout, hpos⟩

theorem State.StepFaults.mem {s t : State} {f : EngineFault} (h : s.StepFaults f t) :
    t.mem = s.mem ∨
      ∃ a l k ans, f = .storeFault s.ip ∧ decode s.cfg.opc t.ir = .ok (.rds a) ∧ s.input[s.inputPos]? = some ans ∧
        ans.asLine = .line l ∧ k ≤ l.length ∧ s.storeDraw = some (if s.hold then k else k + 1) ∧
        t.mem = Memory.writeBytes s.mem (byteAddr a) (l.take k) := by
  cases h with
  | fetchOutside | fetchFails | illegal => exact .inl rfl
  | execute hpast hdec hfault =>
    cases hfault with
    | operand | input | tooLong | storeAtRdi | storeAtPrint => exact .inl rfl
    | storeAtRds hfits hans hline hroom hk hdraw =>
      exact .inr ⟨_, _, _, _, rfl, hdec, hans, hline, hk, hpast.storeDraw hdraw, rfl⟩

/-- Settles O34: the frame of each way a step can fault, and the answer of the step after it. -/
theorem faultsArePrecise : Obligations.FaultsArePrecise := by
  intro s t f hstep hf
  have hfault := step_faults hstep hf
  have hsetup := step_sameSetup hstep
  obtain ⟨hfip, hip, hout, hpos⟩ := hfault.frame
  exact ⟨hfip, hip, hsetup.acc, hsetup.cfg, hout, hsetup.input, hfault.ir, hpos, hfault.mem, step_of_faulted hf⟩

/-- Settles O56: the ways a step can fault, by the fault's code and by whether the store failed at the fetch. -/
theorem faultsKeepWhatWasDone : Obligations.FaultsKeepWhatWasDone := by
  intro s t f hstep hf
  cases step_faults hstep hf with
  | fetchOutside | illegal => simp [EngineFault.code, State.atExecute]
  | fetchFails hhold hip hdraw => simp [EngineFault.code, hhold, hdraw]
  | execute hpast hdec hfault =>
    have hfetch {P : Prop} (hhold : s.hold = false) (hdraw : s.storeDraw = some 0) : P :=
      absurd hdraw (hpast.storeDraw_ne_zero hhold)
    cases hfault with
    | operand | input | tooLong => simp [EngineFault.code, State.atExecute]
    | storeAtRdi =>
      exact ⟨nofun, by simp [EngineFault.code], fun _ => hfetch, fun _ _ => .inl ⟨_, hdec, rfl, rfl⟩⟩
    | @storeAtPrint i a d hprint =>
      have hdec' := hprint.imp (fun hi => hi ▸ hdec) (fun hi => hi ▸ hdec)
      exact ⟨nofun, by simp [EngineFault.code], fun _ => hfetch, fun _ _ => .inr (.inl ⟨a, hdec', rfl, rfl⟩)⟩
    | storeAtRds hfits hans hline hroom hk hdraw =>
      exact ⟨nofun, by simp [EngineFault.code], fun _ => hfetch, fun _ _ =>
        .inr (.inr ⟨_, _, _, _, hdec, hans, hline, hk, hpast.storeDraw hdraw, rfl, rfl⟩)⟩

end Sys2Proof.Machine
end

section
/-! PROOFS. What decoding a Word says of its two fields, the opcode bytes outside OPC counted, and O1, O3 and O4 from these (R54, R55,
R58, R59). -/

namespace Sys2Proof

open Sys2Proof.Machine

@[simp] theorem Mnemonic.mnemonic_instr (m : Mnemonic) (a : Byte) : (m.instr a).mnemonic = m := by cases m <;> rfl

@[simp] theorem Mnemonic.operand_instr (m : Mnemonic) (a : Byte) : (m.instr a).operand = a := by cases m <;> rfl

theorem decode_eq_ok_iff {opc : Opc} {w : Word} {i : Instr} :
    decode opc w = .ok i ↔ ∃ m, mnemonicOf opc (opcodeOf w) = some m ∧ i = m.instr (operandOf w) := by
  cases hm : mnemonicOf opc (opcodeOf w) <;> simp [decode, hm, eq_comm]

theorem fields_of_decode {opc : Opc} {w : Word} {i : Instr} (h : decode opc w = .ok i) :
    opcodeOf w = opc.value i.mnemonic ∧ operandOf w = i.operand := by
  obtain ⟨m, hm, rfl⟩ := decode_eq_ok_iff.mp h
  rw [Mnemonic.mnemonic_instr, Mnemonic.operand_instr, value_of_mnemonicOf hm]
  exact ⟨rfl, rfl⟩

/-- Settles O1: each Word is the encoding of its instruction under the default OPC, whose values are distinct. -/
theorem specWordsDecode : Obligations.SpecWordsDecode :=
  have hdec (i : Instr) : decode Opc.default (encode Opc.default i) = .ok i := decode_encode (by decide) i
  ⟨hdec (.rdi 20), hdec (.rds 30), hdec (.prti 99), hdec (.prts 40), hdec (.b 5), hdec (.bn 9), hdec (.bz 255), hdec (.halt 7)⟩

/-- Settles O3: decoding fixes both fields, and a Word is its two fields. -/
theorem encodeInvertsDecode : Obligations.EncodeInvertsDecode := by
  intro opc w i hdec
  obtain ⟨hopcode, hoperand⟩ := fields_of_decode hdec
  rw [encode, ← hopcode, ← hoperand, packWord_opcodeOf_operandOf]

/-! ### The opcode bytes outside OPC -/

theorem decode_error_iff {opc : Opc} {w : Word} : (∃ e, decode opc w = .error e) ↔ opcodeOf w ∉ opc.values := by
  refine ⟨fun ⟨e, he⟩ hmem => ?_, fun h => ⟨_, decode_of_opcode_not_mem h⟩⟩
  obtain ⟨m, hm⟩ := Option.ne_none_iff_exists'.mp fun hnone => mnemonicOf_eq_none_iff.mp hnone hmem
  cases he.symm.trans (decode_eq_ok_iff.mpr ⟨m, hm, rfl⟩)

theorem decode_map_mnemonic_congr {opc : Opc} {w w' : Word} (h : opcodeOf w = opcodeOf w') :
    (decode opc w).map Instr.mnemonic = (decode opc w').map Instr.mnemonic := by
  cases hm : mnemonicOf opc (opcodeOf w') <;> simp [decode, h, hm, Except.map]

/-- A list of distinct bytes leaves out 256 less its length of the byte values. -/
theorem length_filter_not_mem {vs : List Byte} (h : vs.Nodup) :
    ((List.range 256).filter (fun n => decide (BitVec.ofNat 8 n ∉ vs))).length + vs.length = 256 := by
  have hperm : ((List.range 256).filter (fun n => decide (BitVec.ofNat 8 n ∈ vs))).Perm (vs.map BitVec.toNat) := by
    refine (List.perm_ext_iff_of_nodup (List.nodup_range.filter _) (h.map fun _ _ => BitVec.eq_of_toNat_eq)).mpr fun n => ?_
    simp only [List.mem_filter, List.mem_range, decide_eq_true_eq, List.mem_map]
    refine ⟨fun ⟨hn, hmem⟩ => ⟨_, hmem, by simpa using hn⟩, ?_⟩
    rintro ⟨v, hv, rfl⟩
    exact ⟨v.isLt, by simpa using hv⟩
  have hsplit := List.length_eq_length_filter_add (l := List.range 256) (fun n => decide (BitVec.ofNat 8 n ∈ vs))
  rw [hperm.length_eq, List.length_map, List.length_range] at hsplit
  simp only [decide_not]
  omega

/-- Settles O4: decoding fails where `mnemonicOf` does, which is outside the eight values, and reads the opcode byte alone. -/
theorem illegalOpcodesAreTheOther248 : Obligations.IllegalOpcodesAreTheOther248 := by
  intro opc hdistinct
  refine ⟨fun w => decode_error_iff, ?_, fun w w' => decode_map_mnemonic_congr⟩
  have hcount := length_filter_not_mem (of_decide_eq_true hdistinct)
  have hlen : opc.values.length = 8 := rfl
  omega

end Sys2Proof
end

section
/-! PROOFS. What a step does to memory and to the host's ports, and O33, O38 and O39 from it (R30, R32, R90). -/

namespace Sys2Proof.Machine

/-! ### Memory -/

/-- What the execute phase of `i` can make of memory: nothing, RDI's Word, or bytes of RDS's block. -/
theorem State.ExecTo.mem_cases {s t : State} {i : Instr} (h : s.ExecTo i t) :
    t.mem = s.mem ∨
    (∃ a v, i = .rdi a ∧ wordAddr a ≤ 99 ∧ t.mem = Memory.writeWord s.mem (wordAddr a) v) ∨
    (∃ a vs, i = .rds a ∧ blockFits s.cfg a = true ∧ vs.length ≤ s.cfg.strBlock ∧
      t.mem = Memory.writeBytes s.mem (byteAddr a) vs) := by
  cases h with
  | faults hfault =>
    cases hfault with
    | operand | input | tooLong | storeAtRdi | storeAtPrint => exact .inl rfl
    | storeAtRds hfits hans hline hroom hk hdraw =>
      exact .inr (.inr ⟨_, _, rfl, hfits, (List.length_take_le _ _).trans (by omega), rfl⟩)
  | holds | prints | branches | fallsThrough | halts => exact .inl rfl
  | storesWord ha hans => exact .inr (.inl ⟨_, _, rfl, ha, rfl⟩)
  | storesLine hfits hans hlen => exact .inr (.inr ⟨_, _, rfl, hfits, hlen, rfl⟩)

theorem blockFits_iff {c : Config} {a : Byte} : blockFits c a = true ↔ byteAddr a + c.strBlock ≤ 200 := decide_eq_true_iff

/-- The execute phase changes only bytes of RDI's Word or of RDS's block. -/
theorem State.ExecTo.readByte_ne {s t : State} {i : Instr} (h : s.ExecTo i t) (hwf : Memory.wf s.mem = true) {b : Nat}
    (hb : Memory.readByte t.mem b ≠ Memory.readByte s.mem b) :
    (∃ a, i = .rdi a ∧ (b = byteAddr a ∨ b = byteAddr a + 1)) ∨
    (∃ a, i = .rds a ∧ byteAddr a ≤ b ∧ b < byteAddr a + s.cfg.strBlock) := by
  obtain hmem | ⟨a, v, rfl, ha, hmem⟩ | ⟨a, vs, rfl, hfits, hlen, hmem⟩ := h.mem_cases <;> rw [hmem] at hb
  · exact absurd rfl hb
  · refine .inl ⟨a, rfl, ?_⟩
    by_contra hout
    obtain ⟨h0, h1⟩ := not_or.mp hout
    exact hb ((Memory.readByte_writeWord hwf ha v b).trans ((if_neg h0).trans (if_neg h1)))
  · have hfits := blockFits_iff.mp hfits
    refine .inr ⟨a, rfl, ?_⟩
    by_contra hout
    exact hb (by rw [Memory.readByte_writeBytes hwf (by omega), dif_neg (by omega)])

/-- Settles O33: of the ways to the next state only an execute phase writes memory, and it leaves the instruction in IR. -/
theorem stepsWriteOnlyTheirDestination : Obligations.StepsWriteOnlyTheirDestination := by
  intro s t b hwf hstep hb
  obtain ⟨-, hto⟩ := step_next hstep
  cases hto with
  | fetchOutside | fetchFails | illegal => exact absurd rfl hb
  | @runs i u hpast hdec hexec =>
    rw [advance_mem] at hb
    rw [advance_ir, exec_ir hexec, hdec]
    exact ((exec_execTo hexec).readByte_ne hwf hb).imp (fun ⟨a, hi, hin⟩ => ⟨a, congrArg _ hi, hin⟩)
      (fun ⟨a, hi, hin⟩ => ⟨a, congrArg _ hi, hin⟩)

theorem State.ExecTo.mem_wf {s t : State} {i : Instr} (h : s.ExecTo i t) (hwf : Memory.wf s.mem = true) :
    Memory.wf t.mem = true := by
  obtain hmem | ⟨a, v, -, ha, hmem⟩ | ⟨a, vs, -, hfits, hlen, hmem⟩ := h.mem_cases <;> rw [hmem]
  · exact hwf
  · exact Memory.wf_writeWord hwf ha v
  · have hfits := blockFits_iff.mp hfits
    exact Memory.wf_writeBytes hwf (by omega)

theorem step_mem_wf {s t : State} (h : step s = .next t) (hwf : Memory.wf s.mem = true) : Memory.wf t.mem = true := by
  obtain ⟨-, hto⟩ := step_next h
  cases hto with
  | fetchOutside | fetchFails | illegal => exact hwf
  | runs hpast hdec hexec =>
    rw [advance_mem]
    exact (exec_execTo hexec).mem_wf hwf

/-! ### The input port -/

theorem State.ExecTo.inputPos_cases {s t : State} {i : Instr} (h : s.ExecTo i t) :
    t.inputPos = s.inputPos ∨ ((∃ ans, s.input[s.inputPos]? = some ans) ∧ t.inputPos = s.inputPos + 1) := by
  cases h with
  | faults hfault =>
    cases hfault with
    | operand | storeAtPrint => exact .inl rfl
    | input hans | tooLong hans | storeAtRdi hans | storeAtRds _ hans => exact .inr ⟨⟨_, hans⟩, rfl⟩
  | holds | prints | branches | fallsThrough | halts => exact .inl rfl
  | storesWord _ hans | storesLine _ hans => exact .inr ⟨⟨_, hans⟩, rfl⟩

theorem step_inputPos_cases {s t : State} (h : step s = .next t) :
    t.inputPos = s.inputPos ∨ ((∃ ans, s.input[s.inputPos]? = some ans) ∧ t.inputPos = s.inputPos + 1) := by
  obtain ⟨-, hto⟩ := step_next h
  cases hto with
  | fetchOutside | fetchFails | illegal => exact .inl rfl
  | runs hpast hdec hexec =>
    rw [advance_inputPos]
    exact (exec_execTo hexec).inputPos_cases

/-! ### RUN and the output port -/

/-- `s.ReportsIn t`: RUN and the output of `t` are what a step from the running state `s` makes of them. -/
inductive State.ReportsIn (s t : State) : Prop
  | running (hrun : t.run = .running) (hout : t.output = s.output)
  | prints {e} (hrun : t.run = .running) (hhalt : e.isHalt = false) (hrange : e.inRange = true)
      (hout : t.output = s.output ++ [e])
  | faults {f} (hrun : t.run = .faulted f) (hfip : f.ip = t.ip) (hout : t.output = s.output)
  | halts {x} (hrun : t.run = .halted) (hdec : decode s.cfg.opc s.atExecute.ir = .ok (.halt x)) (hpast : s.pastFetch)
      (hip : t.ip = s.ip) (hir : t.ir = s.atExecute.ir) (hmem : t.mem = s.mem)
      (hout : t.output = s.output ++ [.halt t.ip t.ir t.acc])

theorem step_reportsIn {s t : State} (h : step s = .next t) : s.ReportsIn t := by
  obtain ⟨hrun, hto⟩ := step_next h
  cases hto with
  | fetchOutside | fetchFails | illegal => exact .faults rfl rfl rfl
  | runs hpast hdec hexec =>
    cases exec_execTo hexec with
    | faults hfault =>
      obtain ⟨hfip, hip, -, hout, -⟩ := hfault.frame
      rw [advance_off (.inl (by simp [hfault.run]))]
      exact .faults hfault.run (hfip.trans hip.symm) hout
    | holds | storesWord | storesLine | branches | fallsThrough =>
      exact .running ((advance_run _).trans hrun) (advance_output _)
    | prints hprint hhalt hrange => exact .prints ((advance_run _).trans hrun) hhalt hrange (advance_output _)
    | halts =>
      rw [advance_of_halted rfl]
      exact .halts rfl hdec hpast rfl rfl rfl rfl

/-- Settles O38: ACC, the parameters and the host's input are the setup no step writes. -/
theorem stepsKeepAccParametersAndInput : Obligations.StepsKeepAccParametersAndInput := by
  intro s t hstep
  obtain ⟨hacc, hcfg, hinput⟩ := step_sameSetup hstep
  exact ⟨hacc, hcfg, hinput⟩

/-- Settles O39: a step prints one event, reports its halt, or leaves the output; and it takes an answer or leaves the input. -/
theorem portsOnlyMoveForward : Obligations.PortsOnlyMoveForward := by
  intro s t hstep
  refine ⟨?_, (step_inputPos_cases hstep).imp_right And.right⟩
  cases step_reportsIn hstep with
  | running _ hout | faults _ _ hout => exact .inl hout
  | prints _ _ _ hout | halts _ _ _ _ _ _ hout => exact .inr ⟨_, hout⟩

end Sys2Proof.Machine
end

section
/-! PROOFS. The invariant, one conjunct at a time: IP and the hold, RUN and the output, and O36, O40, O41 and O43 from them (R23, R88,
R106, R113). -/

namespace Sys2Proof.Machine

/-! ### IP and the hold -/

/-- The part of the invariant that bounds IP: no more than 256, and a hold only in an instruction fetched from memory that asks for
input, so that the advance after it stays in bounds. -/
structure State.IpOk (s : State) : Prop where
  ip_le   : s.ip.toNat ≤ 256
  hold_ok : s.holdOk

theorem holdOk_iff {s : State} :
    s.holdOk ↔ (s.hold = true → s.run = .running ∧ s.ip.toNat ≤ 99 ∧ s.ir = s.wordAtIp ∧
      ∃ i, decode s.cfg.opc s.ir = .ok i ∧ s.asksInput i) := by
  have hexists : (∃ i, decode s.cfg.opc s.ir = .ok i ∧ s.asksInput i) ↔
      ∃ a, (decode s.cfg.opc s.ir = .ok (.rdi a) ∧ wordAddr a ≤ 99) ∨
        (decode s.cfg.opc s.ir = .ok (.rds a) ∧ blockFits s.cfg a = true) := by
    constructor
    · rintro ⟨i, hdec, a, ⟨rfl, hcheck⟩ | ⟨rfl, hcheck⟩⟩
      · exact ⟨a, .inl ⟨hdec, hcheck⟩⟩
      · exact ⟨a, .inr ⟨hdec, hcheck⟩⟩
    · rintro ⟨a, ⟨hdec, hcheck⟩ | ⟨hdec, hcheck⟩⟩
      · exact ⟨_, hdec, a, .inl ⟨rfl, hcheck⟩⟩
      · exact ⟨_, hdec, a, .inr ⟨rfl, hcheck⟩⟩
  rw [hexists]
  rfl

theorem holdOk_of_not_hold {s : State} (h : s.hold = false) : s.holdOk := fun hh => by simp [h] at hh

/-- Past its fetch, a step has in IR the Word at IP, which lies in memory. -/
theorem State.pastFetch.fetched {s : State} (h : s.pastFetch) (hok : s.holdOk) :
    s.ip.toNat ≤ 99 ∧ s.atExecute.ir = s.wordAtIp := by
  cases hhold : s.hold
  · obtain ⟨hip, -⟩ := h.resolve_left (by simp [hhold])
    exact ⟨hip, by rw [State.atExecute_of_not_hold hhold]; rfl⟩
  · obtain ⟨-, hip, hir, -⟩ := holdOk_iff.mp hok hhold
    exact ⟨hip, by rw [State.atExecute_of_hold hhold, hir]⟩

/-- A step that goes on after a hold runs an instruction that asks for input. -/
theorem asksInput_of_hold {s : State} {i : Instr} (hok : s.holdOk) (hdec : decode s.cfg.opc s.atExecute.ir = .ok i)
    (hhold : s.hold = true) : s.asksInput i := by
  obtain ⟨-, -, -, j, hj, hasks⟩ := holdOk_iff.mp hok hhold
  rw [State.atExecute_of_hold hhold] at hdec
  cases hdec.symm.trans hj
  exact hasks

/-- An instruction that asks for input holds when there is no answer, and otherwise takes one and leaves no hold. -/
theorem State.ExecTo.of_asksInput {s t : State} {i : Instr} (h : s.ExecTo i t) (hasks : s.asksInput i) :
    (s.input[s.inputPos]? = none ∧ t = s.setHold true) ∨
    ((∃ ans, s.input[s.inputPos]? = some ans) ∧ t.hold = false ∧ t.inputPos = s.inputPos + 1) := by
  cases h with
  | faults hfault =>
    cases hfault with
    | operand hcheck => exact absurd hasks hcheck
    | storeAtPrint hprint => obtain rfl | rfl := hprint <;> simp [State.asksInput] at hasks
    | input hans | tooLong hans | storeAtRdi hans | storeAtRds _ hans => exact .inr ⟨⟨_, hans⟩, rfl, rfl⟩
  | holds _ hnone => exact .inl ⟨hnone, rfl⟩
  | storesWord _ hans | storesLine _ hans => exact .inr ⟨⟨_, hans⟩, rfl, rfl⟩
  | prints hprint => obtain rfl | rfl := hprint <;> simp [State.asksInput] at hasks
  | branches htaken => obtain rfl | ⟨rfl, -⟩ | ⟨rfl, -⟩ := htaken <;> simp [State.asksInput] at hasks
  | fallsThrough hcond => obtain rfl | rfl := hcond <;> simp [State.asksInput] at hasks
  | halts => simp [State.asksInput] at hasks

theorem State.ExecTo.not_hold_of_not_asksInput {s t : State} {i : Instr} (h : s.ExecTo i t) (hasks : ¬ s.asksInput i)
    (hfree : s.hold = false) : t.hold = false := by
  cases h with
  | faults hfault =>
    cases hfault with
    | operand | storeAtPrint => exact hfree
    | input | tooLong | storeAtRdi | storeAtRds => rfl
  | holds hasks' => exact absurd hasks' hasks
  | storesWord | storesLine => rfl
  | prints | branches | fallsThrough | halts => exact hfree

/-- An execute phase leaves no hold but the one it begins. -/
theorem State.ExecTo.hold_cases {s t : State} {i : Instr} (h : s.ExecTo i t) (hheld : s.hold = true → s.asksInput i) :
    t.hold = false ∨ (s.asksInput i ∧ t = s.setHold true) := by
  by_cases hasks : s.asksInput i
  · obtain ⟨-, ht⟩ | ⟨-, hfree, -⟩ := h.of_asksInput hasks
    · exact .inr ⟨hasks, ht⟩
    · exact .inl hfree
  · exact .inl (h.not_hold_of_not_asksInput hasks (by simpa using mt hheld hasks))

theorem State.ExecTo.ip_cases {s t : State} {i : Instr} (h : s.ExecTo i t) : t.ip = s.ip ∨ ∃ a, t = branchTo a s := by
  cases h with
  | faults hfault =>
    obtain ⟨-, hip, -, -, -⟩ := hfault.frame
    exact .inl hip
  | branches => exact .inr ⟨_, rfl⟩
  | holds | storesWord | storesLine | prints | fallsThrough | halts => exact .inl rfl

theorem advance_ip_le {s : State} (h : s.ip.toNat ≤ 99) : (advance s).ip.toNat ≤ 256 := by
  obtain ⟨-, -, hadv⟩ | ⟨-, hadv⟩ := advance_cases s <;> rw [hadv]
  · rw [State.setIp_ip]
    bv_omega
  · omega

theorem advance_branchTo {a : Byte} {s : State} (hrun : s.run = .running) (hhold : s.hold = false) :
    advance (branchTo a s) = { s with ip := BitVec.ofNat 16 a.toNat } := by
  rw [branchTo_eq, advance_of_ip_sub_one hrun hhold]

theorem State.ExecTo.advance_ip_le {s t : State} {i : Instr} (h : s.ExecTo i t) (hrun : s.run = .running)
    (hip : s.ip.toNat ≤ 99) (hfree : t.hold = false) : (advance t).ip.toNat ≤ 256 := by
  obtain heq | ⟨a, rfl⟩ := h.ip_cases
  · exact Machine.advance_ip_le (heq ▸ hip)
  · rw [advance_branchTo hrun hfree, toNat_ofNat_byte]
    exact a.isLt.le

theorem step_ipOk {s t : State} (hok : s.IpOk) (h : step s = .next t) : t.IpOk := by
  obtain ⟨hrun, hto⟩ := step_next h
  cases hto with
  | fetchOutside hhold | fetchFails hhold => exact ⟨hok.ip_le, holdOk_of_not_hold hhold⟩
  | illegal hpast hdec =>
    refine ⟨hok.ip_le, holdOk_of_not_hold (Bool.eq_false_iff.mpr fun hhold => ?_)⟩
    obtain ⟨-, -, -, i, hi, -⟩ := holdOk_iff.mp hok.hold_ok hhold
    rw [State.atExecute_of_hold (s := s) hhold] at hdec
    cases hdec.symm.trans hi
  | @runs i u hpast hdec hexec =>
    obtain ⟨hip, hir⟩ := hpast.fetched hok.hold_ok
    have hto := exec_execTo hexec
    obtain hfree | ⟨hasks, rfl⟩ := hto.hold_cases (asksInput_of_hold (s := s) hok.hold_ok hdec)
    · exact ⟨hto.advance_ip_le hrun hip hfree, holdOk_of_not_hold ((advance_hold u).trans hfree)⟩
    · rw [advance_off (.inr rfl)]
      exact ⟨hok.ip_le, holdOk_iff.mpr fun _ => ⟨hrun, hip, hir, i, hdec, hasks⟩⟩

theorem launch_cases {c : Config} {l : LaunchInput} {m : Memory} {s : State} (h : launch c l m = .ok s) :
    l.entry ≤ 99 ∧ s =
      { cfg := c, ip := BitVec.ofNat 16 l.entry, ir := l.irInit, acc := l.accInit, run := .running, mem := m,
        input := l.input, inputPos := 0, output := [], hold := false, storeDraw := l.storeDraw } := by
  unfold launch at h
  split at h <;> cases h
  case isTrue hentry => exact ⟨of_decide_eq_true hentry, rfl⟩

theorem launch_ip {c : Config} {l : LaunchInput} {m : Memory} {s : State} (h : launch c l m = .ok s) :
    s.ip.toNat = l.entry ∧ s.ip.toNat ≤ 99 := by
  obtain ⟨hentry, rfl⟩ := launch_cases h
  rw [BitVec.toNat_ofNat]
  omega

theorem launch_ipOk {c : Config} {l : LaunchInput} {m : Memory} {s : State} (h : launch c l m = .ok s) : s.IpOk := by
  obtain ⟨-, hip⟩ := launch_ip h
  obtain ⟨-, rfl⟩ := launch_cases h
  exact ⟨by omega, holdOk_of_not_hold rfl⟩

/-- Settles O36: the bound holds at a launch and every step keeps it, and outside memory a step is the fault of its fetch. -/
theorem ipStaysBelow257 : Obligations.IpStaysBelow257 := by
  intro c l m s t hlaunch hreach
  have hok : t.IpOk := hreach.induct (P := State.IpOk) (fun _ _ hu hstep => step_ipOk hu hstep) (launch_ipOk hlaunch)
  exact ⟨hok.ip_le, fun hip hrun hhold => step_of_ip_outside hrun hhold hip⟩

/-! ### RUN and the output -/

theorem runOk_of_running {s : State} (h : s.run = .running) : s.runOk ↔ ∀ e ∈ s.output, e.isHalt = false := by
  simp only [State.runOk, h]

theorem runOk_of_faulted {s : State} {f : EngineFault} (h : s.run = .faulted f) :
    s.runOk ↔ (∀ e ∈ s.output, e.isHalt = false) ∧ f.ip = s.ip := by
  simp only [State.runOk, h]

theorem runOk_of_halted {s : State} (h : s.run = .halted) :
    s.runOk ↔ (∃ before, s.output = before ++ [.halt s.ip s.ir s.acc] ∧ ∀ e ∈ before, e.isHalt = false)
      ∧ s.ip.toNat ≤ 99 ∧ s.ir = s.wordAtIp ∧ opcodeOf s.ir = s.cfg.opc.halt := by
  simp only [State.runOk, h]
  rfl

theorem step_runOk {s t : State} (hrunOk : s.runOk) (hhold : s.holdOk) (h : step s = .next t) : t.runOk := by
  obtain ⟨hrun, -⟩ := step_next h
  have hnone := (runOk_of_running hrun).mp hrunOk
  cases step_reportsIn h with
  | running hrun hout => exact (runOk_of_running hrun).mpr (hout ▸ hnone)
  | prints hrun hhalt _ hout =>
    refine (runOk_of_running hrun).mpr fun e he => ?_
    rw [hout] at he
    obtain he | he := List.mem_append.mp he
    · exact hnone e he
    · rw [List.mem_singleton.mp he, hhalt]
  | faults hrun hfip hout => exact (runOk_of_faulted hrun).mpr ⟨hout ▸ hnone, hfip⟩
  | halts hrun hdec hpast hip hir hmem hout =>
    obtain ⟨hin, hword⟩ := hpast.fetched hhold
    refine (runOk_of_halted hrun).mpr ⟨⟨s.output, hout, hnone⟩, hip ▸ hin, ?_, ?_⟩
    · rw [hir, hword, State.wordAtIp, State.wordAtIp, hip, hmem]
    · rw [hir, (step_sameSetup h).cfg, (fields_of_decode hdec).1]
      rfl

theorem step_inRange {s t : State} (h : step s = .next t) (hrange : ∀ e ∈ s.output, e.inRange = true) :
    ∀ e ∈ t.output, e.inRange = true := by
  have hsnoc {e : Event} (he : e.inRange = true) : ∀ d ∈ s.output ++ [e], d.inRange = true := by
    simpa [or_imp, forall_and] using ⟨hrange, he⟩
  cases step_reportsIn h with
  | running _ hout | faults _ _ hout => exact hout ▸ hrange
  | prints _ _ he hout => exact hout ▸ hsnoc he
  | halts _ _ _ _ _ _ hout => exact hout ▸ hsnoc rfl

/-! ### The invariant -/

theorem step_inputPos_le {s t : State} (h : step s = .next t) (hle : s.inputPos ≤ s.input.length) :
    t.inputPos ≤ t.input.length := by
  rw [(step_sameSetup h).input]
  obtain hpos | ⟨⟨ans, hans⟩, hpos⟩ := step_inputPos_cases h <;> rw [hpos]
  · exact hle
  · obtain ⟨hlt, -⟩ := List.getElem?_eq_some_iff.mp hans
    exact hlt

/-- Settles O40: each conjunct is kept by what a step can do to it; the bound on IP needs the hold's, and so does the halt report. -/
theorem stepKeepsTheInvariant : Obligations.StepKeepsTheInvariant := by
  intro s t hinv hstep
  obtain ⟨hip, hhold⟩ := step_ipOk ⟨hinv.ip_le, hinv.hold_ok⟩ hstep
  exact
    { mem_wf := step_mem_wf hstep hinv.mem_wf
      cfg_wf := (step_sameSetup hstep).cfg ▸ hinv.cfg_wf
      ip_le := hip
      pos_le := step_inputPos_le hstep hinv.pos_le
      ints_ok := step_inRange hstep hinv.ints_ok
      run_ok := step_runOk hinv.run_ok hinv.hold_ok hstep
      hold_ok := hhold }

/-- Settles O43: a launch has printed nothing, taken nothing and holds nothing. -/
theorem launchMeetsTheInvariant : Obligations.LaunchMeetsTheInvariant := by
  intro c l m s hcfg hmem hlaunch
  obtain ⟨hip, hhold⟩ := launch_ipOk hlaunch
  obtain ⟨-, rfl⟩ := launch_cases hlaunch
  exact
    { mem_wf := hmem
      cfg_wf := hcfg
      ip_le := hip
      pos_le := Nat.zero_le _
      ints_ok := nofun
      run_ok := (runOk_of_running rfl).mpr nofun
      hold_ok := hhold }

/-- Settles O41: the machine right after reset is a launch at 0 on a created store. -/
theorem resetMeetsTheInvariant : Obligations.ResetMeetsTheInvariant :=
  launchMeetsTheInvariant Config.default { entry := 0, accInit := 0, irInit := 0, input := [], storeDraw := none } createdStore _
    (by decide) Memory.wf_nil rfl

end Sys2Proof.Machine
end

section
/-! PROOFS. The ways of RDI, RDS and PRTS, one equation each, and O12 to O14, O16, O17, O19, O20 and O45 from them; O35 from the same
ways in the order of R115 (R91 to R96, R113). -/

namespace Sys2Proof.Machine

/-! ### RDI -/

theorem exec_rdi_outside {a : Byte} {s : State} (ha : 99 < wordAddr a) :
    exec (.rdi a) s = .next (s.raise (.operandOutOfRange s.ip (wordAddr a))) :=
  if_neg ha.not_ge

theorem exec_rdi_holds {a : Byte} {s : State} (ha : wordAddr a ≤ 99) (hnone : s.input[s.inputPos]? = none) :
    exec (.rdi a) s = .next (s.setHold true) := by
  simp [exec, execRdi, ha, askInput_none hnone]

theorem exec_rdi_bad {a : Byte} {s : State} {ans : Answer} (ha : wordAddr a ≤ 99) (hans : s.input[s.inputPos]? = some ans)
    (hbad : ans.asInt = .bad) : exec (.rdi a) s = .next (s.takeAnswer.raise (.inputError s.ip)) := by
  simp [exec, execRdi, ha, askInput_some hans, hbad]

theorem exec_rdi_unfit {a : Byte} {s : State} {ans : Answer} {n : Int} (ha : wordAddr a ≤ 99)
    (hans : s.input[s.inputPos]? = some ans) (hint : ans.asInt = .int n) (hunfit : fitsInt32 n = false) :
    exec (.rdi a) s = .next (s.takeAnswer.raise (.inputError s.ip)) := by
  simp [exec, execRdi, ha, askInput_some hans, hint, hunfit]

theorem s16_wrap16 (n : Int) : s16 (wrap16 n) = (n + 32768) % 65536 - 32768 := by
  rw [s16, wrap16, BitVec.toInt_ofInt, Int.bmod_def]
  split <;> omega

/-- Settles O13: the Word written reads back as the wrap of the integer, and no byte outside it is written. -/
theorem rdiStoresTheInteger : Obligations.RdiStoresTheInteger := by
  intro s a ans n hwf ha hans hint hmin hmax hdraw
  refine ⟨_, exec_rdi_ok ha hans hint (fitsInt32_iff.mpr ⟨hmin, hmax⟩) hdraw, Memory.wf_writeWord hwf ha _, ?_,
    fun b h0 h1 => ?_⟩
  · rw [Memory.readWord_writeWord_same hwf ha, s16_wrap16]
  · exact (Memory.readByte_writeWord hwf ha _ b).trans ((if_neg h0).trans (if_neg h1))

theorem fitsInt32_eq_false {n : Int} (h : n < -2 ^ 31 ∨ 2 ^ 31 - 1 < n) : fitsInt32 n = false :=
  decide_eq_false (by omega)

/-- Settles O14: the ways of RDI but the store of its integer. -/
theorem rdiTrapsAndWaits : Obligations.RdiTrapsAndWaits := by
  intro s a
  refine ⟨exec_rdi_outside, fun ha => ⟨exec_rdi_holds ha, fun ans hans => ⟨?_, fun n hint hmin hmax hdraw => ?_⟩⟩⟩
  · rintro (hbad | ⟨n, hint, hunfit⟩)
    · exact exec_rdi_bad ha hans hbad
    · exact exec_rdi_unfit ha hans hint (fitsInt32_eq_false hunfit)
  · exact exec_rdi_storeFault ha hans hint (fitsInt32_iff.mpr ⟨hmin, hmax⟩) hdraw

/-! ### RDS -/

theorem exec_rds_outside {a : Byte} {s : State} (hout : blockFits s.cfg a = false) :
    exec (.rds a) s = .next (s.raise (.operandOutOfRange s.ip (wordAddr a))) := by
  simp [exec, execRds, hout]

theorem exec_rds_holds {a : Byte} {s : State} (hfits : blockFits s.cfg a = true) (hnone : s.input[s.inputPos]? = none) :
    exec (.rds a) s = .next (s.setHold true) := by
  simp [exec, execRds, hfits, askInput_none hnone]

theorem exec_rds_eof {a : Byte} {s : State} {ans : Answer} (hfits : blockFits s.cfg a = true)
    (hans : s.input[s.inputPos]? = some ans) (heof : ans.asLine = .eof) :
    exec (.rds a) s = .next (s.takeAnswer.raise (.inputError s.ip)) := by
  simp [exec, execRds, hfits, askInput_some hans, heof]

theorem line_fits {c : Config} {a : Byte} {l : List Byte} (hfits : blockFits c a = true) (hroom : l.length + 1 ≤ c.strBlock) :
    byteAddr a + (l ++ [(0 : Byte)]).length ≤ 200 := by
  have hblock := blockFits_iff.mp hfits
  rw [List.length_append, List.length_singleton]
  omega

section Line
variable {s : State} {a : Byte} {ans : Answer} {l : List Byte}
  (hfits : blockFits s.cfg a = true) (hans : s.input[s.inputPos]? = some ans) (hline : ans.asLine = .line l)
include hfits hans hline

theorem exec_rds_tooLong (hlong : s.cfg.strBlock < l.length + 1) :
    exec (.rds a) s = .next (s.takeAnswer.raise (.inputTooLong s.ip l.length)) := by
  simp [exec, execRds, hfits, askInput_some hans, hline, Nat.not_lt.mpr (Nat.le_of_lt_succ hlong)]

variable (hroom : l.length + 1 ≤ s.cfg.strBlock)
include hroom

theorem exec_rds_of_line : exec (.rds a) s = (memWriteBytes (byteAddr a) (l ++ [0]) s.takeAnswer).finish := by
  simp [exec, execRds, hfits, askInput_some hans, hline, Nat.lt_of_succ_le hroom]

theorem exec_rds_ok (hdraw : drawAllows (l.length + 1) s.storeDraw = true) :
    exec (.rds a) s =
      .next ((s.takeAnswer.setStoreDraw (drawAfter (l.length + 1) s.storeDraw)).setMem
        (Memory.writeBytes s.mem (byteAddr a) (l ++ [0]))) := by
  have hlen : (l ++ [(0 : Byte)]).length = l.length + 1 := by simp
  rw [exec_rds_of_line hfits hans hline hroom, memWriteBytes_ok (line_fits hfits hroom) (by rwa [hlen]), hlen]
  rfl

theorem exec_rds_storeFault {k : Nat} (hdraw : s.storeDraw = some k) (hk : k ≤ l.length) :
    exec (.rds a) s =
      .next (((s.takeAnswer.setStoreDraw (some 0)).setMem (Memory.writeBytes s.mem (byteAddr a) (l.take k))).raise
        (.storeFault s.ip)) := by
  rw [exec_rds_of_line hfits hans hline hroom,
    memWriteBytes_storeFault (s := s.takeAnswer) (line_fits hfits hroom) hdraw (by simp; omega),
    List.take_append_of_le_length hk]
  rfl

end Line

theorem Memory.readByte_writeBytes_at {m : Memory} (h : Memory.wf m = true) {b i : Nat} {vs : List Byte}
    (hb : b + vs.length ≤ 200) (hi : i < vs.length) : Memory.readByte (Memory.writeBytes m b vs) (b + i) = vs[i] := by
  rw [Memory.readByte_writeBytes h hb, dif_pos ⟨Nat.le_add_right b i, by omega⟩]
  simp only [Nat.add_sub_cancel_left]

theorem Memory.readByte_writeBytes_outside {m : Memory} (h : Memory.wf m = true) {b c : Nat} {vs : List Byte}
    (hb : b + vs.length ≤ 200) (hc : c < b ∨ b + vs.length ≤ c) :
    Memory.readByte (Memory.writeBytes m b vs) c = Memory.readByte m c := by
  rw [Memory.readByte_writeBytes h hb, dif_neg (by omega)]

/-- Settles O16: the bytes written are the line's and then one zero. -/
theorem rdsStoresTheLine : Obligations.RdsStoresTheLine := by
  intro s a ans l hwf hfits hans hline hroom hdraw
  have hlen := line_fits hfits hroom
  refine ⟨_, exec_rds_ok hfits hans hline hroom hdraw, Memory.wf_writeBytes hwf hlen, fun i hi => ?_, ?_, fun b hb => ?_⟩
  · rw [Memory.readByte_writeBytes_at hwf hlen (by simp; omega), List.getElem_append_left hi]
  · rw [Memory.readByte_writeBytes_at hwf hlen (by simp), List.getElem_concat_length rfl]
  · refine Memory.readByte_writeBytes_outside hwf hlen (hb.imp_right fun h => ?_)
    simp only [List.length_append, List.length_singleton]
    omega

/-- Settles O17: the ways of RDS but the store of its whole line; where the store fails, the bytes written are its first ones. -/
theorem rdsTrapsAndWaits : Obligations.RdsTrapsAndWaits := by
  intro s a
  refine ⟨fun hout => exec_rds_outside (decide_eq_false hout.not_ge), fun hin => ?_⟩
  have hfits := blockFits_iff.mpr hin
  refine ⟨exec_rds_holds hfits, fun ans hans => ⟨exec_rds_eof hfits hans, fun l hline => ?_⟩⟩
  refine ⟨exec_rds_tooLong hfits hans hline, fun k hroom hdraw hk hwf => ?_⟩
  have htake : (l.take k).length = k := List.length_take_of_le hk
  have hlen : byteAddr a + (l.take k).length ≤ 200 := by omega
  refine ⟨_, exec_rds_storeFault hfits hans hline hroom hdraw hk, Memory.wf_writeBytes hwf hlen, fun i hi hik => ?_,
    fun b hb => ?_⟩
  · exact (Memory.readByte_writeBytes_at hwf hlen (by omega)).trans List.getElem_take
  · exact Memory.readByte_writeBytes_outside hwf hlen (by omega)

/-! ### PRTS -/

theorem exec_prts_outside {a : Byte} {s : State} (hout : blockFits s.cfg a = false) :
    exec (.prts a) s = .next (s.raise (.operandOutOfRange s.ip (wordAddr a))) := by
  simp [exec, execPrts, hout]

theorem exec_prts_ok {a : Byte} {s : State} (hfits : blockFits s.cfg a = true)
    (hdraw : drawAllows s.cfg.strBlock s.storeDraw = true) :
    exec (.prts a) s =
      .next ((s.setStoreDraw (drawAfter s.cfg.strBlock s.storeDraw)).emit
        (.str ((Memory.readBytes s.mem (byteAddr a) s.cfg.strBlock).takeWhile (· ≠ 0)))) := by
  rw [exec, execPrts, if_pos hfits, memReadBytes_ok (blockFits_iff.mp hfits) hdraw, Access.bind_ok, Access.finish_ok]

theorem exec_prts_storeFault {a : Byte} {s : State} {k : Nat} (hfits : blockFits s.cfg a = true)
    (hdraw : s.storeDraw = some k) (hk : k < s.cfg.strBlock) :
    exec (.prts a) s = .next ((s.setStoreDraw (some 0)).raise (.storeFault s.ip)) := by
  rw [exec, execPrts, if_pos hfits, memReadBytes_storeFault (blockFits_iff.mp hfits) hdraw hk, Access.bind_stop,
    Access.finish_stop]

/-- The element after the first elements that satisfy `p` does not satisfy it. -/
theorem getElem_length_takeWhile {α : Type} {p : α → Bool} {l : List α} (h : (l.takeWhile p).length < l.length) :
    p l[(l.takeWhile p).length] = false := by
  induction l with
  | nil => exact absurd h (Nat.not_lt_zero _)
  | cons x xs ih =>
    cases hx : p x
    · simp [hx]
    · have hxs : (xs.takeWhile p).length < xs.length := by simpa [hx] using h
      simpa [hx] using ih hxs

/-- Settles O19: the bytes are those of the block before its first zero. -/
theorem prtsEmitsTheBlock : Obligations.PrtsEmitsTheBlock := by
  intro s a hfits hdraw
  have hinit := List.takeWhile_prefix (l := Memory.readBytes s.mem (byteAddr a) s.cfg.strBlock) (fun c => decide (c ≠ 0))
  refine ⟨_, exec_prts_ok hfits hdraw, by simpa using hinit.length_le, fun i hi => ⟨?_, ?_⟩, fun hlt => ?_⟩
  · rw [hinit.getElem hi, Memory.getElem_readBytes]
  · have hp := List.mem_takeWhile_imp (List.getElem_mem hi)
    exact of_decide_eq_true hp
  · have hlt := hlt.trans_eq (Memory.length_readBytes s.mem (byteAddr a) s.cfg.strBlock).symm
    rw [← Memory.getElem_readBytes s.mem (byteAddr a) s.cfg.strBlock _ hlt]
    simpa using getElem_length_takeWhile hlt

/-- Settles O20: the two ways of PRTS that print nothing. -/
theorem prtsTraps : Obligations.PrtsTraps := fun _ _ =>
  ⟨fun hout => exec_prts_outside (decide_eq_false hout.not_ge),
    fun _ hin hdraw hk => exec_prts_storeFault (blockFits_iff.mpr hin) hdraw hk⟩

/-! ### PRTS after RDS -/

theorem drawAllows_add {m n : Nat} {d : Option Nat} (h : drawAllows (m + n) d = true) :
    drawAllows m d = true ∧ drawAllows n (drawAfter m d) = true := by
  cases d <;> simp at *; omega

theorem Memory.readBytes_add (m : Memory) (b n k : Nat) :
    Memory.readBytes m b (n + k) = Memory.readBytes m b n ++ Memory.readBytes m (b + n) k := by
  induction n generalizing b with
  | zero => simp [Memory.readBytes]
  | succ n ih => rw [Nat.succ_add, Memory.readBytes, Memory.readBytes, ih, List.cons_append, Nat.succ_add_eq_add_succ]

theorem Memory.readBytes_writeBytes {m : Memory} (h : Memory.wf m = true) {b : Nat} {vs : List Byte}
    (hb : b + vs.length ≤ 200) : Memory.readBytes (Memory.writeBytes m b vs) b vs.length = vs :=
  List.ext_getElem (Memory.length_readBytes _ _ _) fun i hi hi' => by
    rw [Memory.getElem_readBytes, Memory.readByte_writeBytes_at h hb hi']

theorem takeWhile_ne_zero_append_zero (l r : List Byte) :
    (l ++ [0] ++ r).takeWhile (· ≠ 0) = l.takeWhile (· ≠ 0) := by
  induction l with
  | nil => simp
  | cons c l ih => cases hc : decide (c ≠ 0) <;> simp_all

/-- Settles O21: the block begins with the line and its zero byte, and PRTS reads it where RDS left it. -/
theorem prtsPrintsWhatRdsRead : Obligations.PrtsPrintsWhatRdsRead := by
  intro s a ans l hwf hfits hans hline hroom hdraw
  obtain ⟨hdrawRds, hdrawPrts⟩ := drawAllows_add hdraw
  have hlen := line_fits hfits hroom
  have hblock : (Memory.readBytes (Memory.writeBytes s.mem (byteAddr a) (l ++ [0])) (byteAddr a) s.cfg.strBlock).takeWhile
      (· ≠ 0) = l.takeWhile (· ≠ 0) := by
    obtain ⟨r, hr⟩ := Nat.exists_eq_add_of_le hroom
    rw [hr, show l.length + 1 = (l ++ [(0 : Byte)]).length by simp, Memory.readBytes_add, Memory.readBytes_writeBytes hwf hlen,
      takeWhile_ne_zero_append_zero]
  refine ⟨_, _, exec_rds_ok hfits hans hline hroom hdrawRds, exec_prts_ok hfits hdrawPrts, ?_, fun hne => ?_, rfl⟩
  · exact congrArg (fun bytes => s.output ++ [Event.str bytes]) hblock
  · have hall : l.takeWhile (· ≠ 0) = l := List.takeWhile_eq_self_iff.mpr fun c hc => decide_eq_true (hne c hc)
    exact congrArg (fun bytes => s.output ++ [Event.str bytes]) (hblock.trans hall)

/-! ### Every instruction -/

/-- Settles O12: an execute phase is a fixed next state, or the one some `Access` ends in. -/
theorem everyInstructionAnswersANextState : Obligations.EveryInstructionAnswersANextState := by
  intro i s
  cases i with
  | rdi a =>
    by_cases ha : wordAddr a ≤ 99
    · exact ⟨_, if_pos ha⟩
    · exact ⟨_, if_neg ha⟩
  | rds a | prts a =>
    by_cases hfits : blockFits s.cfg a = true
    · exact ⟨_, if_pos hfits⟩
    · exact ⟨_, if_neg hfits⟩
  | prti a | b a | bn a | bz a | halt x => exact ⟨_, rfl⟩

/-- Settles O45: each way of the other five instructions is chosen by conditions that do not read ACC. -/
theorem onlyBnBzEndReadAcc : Obligations.OnlyBnBzEndReadAcc := by
  intro i s v hother
  obtain ⟨t, ht⟩ := everyInstructionAnswersANextState i s
  refine ⟨t, ht, ?_⟩
  cases i with
  | rdi a =>
    obtain ⟨ha, rfl⟩ | ⟨ha, hnone, rfl⟩ |
      ⟨ans, ha, hans, ⟨hbad, rfl⟩ | ⟨n, hint, ⟨hn, rfl⟩ | ⟨hn, hdraw, rfl⟩ | ⟨hn, hdraw, rfl⟩⟩⟩ := execRdi_cases ht
    · exact exec_rdi_outside ha
    · exact exec_rdi_holds ha hnone
    · exact exec_rdi_bad ha hans hbad
    · exact exec_rdi_unfit ha hans hint hn
    · exact exec_rdi_storeFault ha hans hint hn hdraw
    · exact exec_rdi_ok ha hans hint hn hdraw
  | rds a =>
    obtain ⟨hout, rfl⟩ | ⟨hfits, hnone, rfl⟩ |
      ⟨ans, hfits, hans, ⟨heof, rfl⟩ | ⟨l, hline, ⟨hlong, rfl⟩ | ⟨k, hroom, hdraw, hk, rfl⟩ | ⟨hroom, hdraw, rfl⟩⟩⟩ :=
        execRds_cases ht
    · exact exec_rds_outside hout
    · exact exec_rds_holds hfits hnone
    · exact exec_rds_eof hfits hans heof
    · exact exec_rds_tooLong hfits hans hline hlong
    · have hk : k ≤ l.length := Nat.le_of_lt_succ hk
      rw [List.take_append_of_le_length hk]
      exact exec_rds_storeFault (s := { s with acc := v }) hfits hans hline hroom hdraw hk
    · exact exec_rds_ok hfits hans hline hroom hdraw
  | prti a =>
    obtain ⟨ha, rfl⟩ | ⟨ha, hdraw, rfl⟩ | ⟨ha, hdraw, rfl⟩ := execPrti_cases ht
    · exact exec_prti_outside ha
    · exact exec_prti_storeFault ha hdraw
    · exact exec_prti_ok ha hdraw
  | prts a =>
    obtain ⟨hout, rfl⟩ | ⟨k, hfits, hdraw, hk, rfl⟩ | ⟨hfits, hdraw, rfl⟩ := execPrts_cases ht
    · exact exec_prts_outside hout
    · exact exec_prts_storeFault hfits hdraw hk
    · exact exec_prts_ok hfits hdraw
  | b a => cases ht; rfl
  | bn | bz | halt => simp [Instr.mnemonic] at hother

/-! ### The first check that fails -/

@[simp] theorem faultCode_faulted (f : EngineFault) : (Run.faulted f).faultCode = some f.code := rfl

theorem faultCode_of_running {s : State} (h : s.run = .running) : s.run.faultCode = none := by rw [h]; rfl

section FaultCode
variable {s t : State} (hnone : s.run.faultCode = none)
include hnone

theorem execRdi_faultCode {a : Byte} (h : execRdi a s = .next t) : t.run.faultCode = s.firstExecFault (.rdi a) := by
  obtain ⟨ha, rfl⟩ | ⟨ha, hask, rfl⟩ |
    ⟨ans, ha, hans, ⟨hbad, rfl⟩ | ⟨n, hint, ⟨hn, rfl⟩ | ⟨hn, hdraw, rfl⟩ | ⟨hn, hdraw, rfl⟩⟩⟩ := execRdi_cases h
  · rw [State.firstExecFault, if_pos ha, State.raise_run, faultCode_faulted, EngineFault.code]
  all_goals rw [State.firstExecFault, if_neg ha.not_gt]
  · simpa [hask] using hnone
  · simp [hans, hbad, EngineFault.code]
  · simp [hans, hint, hn, EngineFault.code]
  · simp [hans, hint, hn, hdraw, EngineFault.code]
  · simpa [hans, hint, hn, hdraw] using hnone

theorem execRds_faultCode {a : Byte} (h : execRds a s = .next t) : t.run.faultCode = s.firstExecFault (.rds a) := by
  obtain ⟨hout, rfl⟩ | ⟨hfits, hask, rfl⟩ |
    ⟨ans, hfits, hans, ⟨heof, rfl⟩ | ⟨l, hline, ⟨hlong, rfl⟩ | ⟨k, hroom, hdraw, hk, rfl⟩ | ⟨hroom, hdraw, rfl⟩⟩⟩ :=
      execRds_cases h
  · rw [State.firstExecFault, if_pos (not_le.mp (of_decide_eq_false hout)), State.raise_run, faultCode_faulted, EngineFault.code]
  all_goals rw [State.firstExecFault, if_neg (blockFits_iff.mp hfits).not_gt]
  · simpa [hask] using hnone
  · simp [hans, heof, EngineFault.code]
  · simp [hans, hline, hlong, EngineFault.code]
  · simp [hans, hline, hroom.not_gt, hdraw, (Nat.le_of_lt_succ hk).not_gt, EngineFault.code]
  · simpa [hans, hline, hroom.not_gt, hdraw] using hnone

theorem execPrti_faultCode {a : Byte} (h : execPrti a s = .next t) : t.run.faultCode = s.firstExecFault (.prti a) := by
  obtain ⟨ha, rfl⟩ | ⟨ha, hdraw, rfl⟩ | ⟨ha, hdraw, rfl⟩ := execPrti_cases h
  · rw [State.firstExecFault, if_pos ha, State.raise_run, faultCode_faulted, EngineFault.code]
  all_goals rw [State.firstExecFault, if_neg ha.not_gt]
  · simp [hdraw, EngineFault.code]
  · simpa [hdraw] using hnone

theorem execPrts_faultCode {a : Byte} (h : execPrts a s = .next t) : t.run.faultCode = s.firstExecFault (.prts a) := by
  obtain ⟨hout, rfl⟩ | ⟨k, hfits, hdraw, hk, rfl⟩ | ⟨hfits, hdraw, rfl⟩ := execPrts_cases h
  · rw [State.firstExecFault, if_pos (not_le.mp (of_decide_eq_false hout)), State.raise_run, faultCode_faulted, EngineFault.code]
  all_goals rw [State.firstExecFault, if_neg (blockFits_iff.mp hfits).not_gt]
  · simp [hdraw, hk.not_ge, EngineFault.code]
  · simpa [hdraw] using hnone

/-- The fault an execute phase raises is that of its first check that fails (R115). -/
theorem exec_faultCode {i : Instr} (h : exec i s = .next t) : t.run.faultCode = s.firstExecFault i := by
  cases i with
  | rdi a => exact execRdi_faultCode hnone h
  | rds a => exact execRds_faultCode hnone h
  | prti a => exact execPrti_faultCode hnone h
  | prts a => exact execPrts_faultCode hnone h
  | b a => cases h; exact hnone
  | bn a | bz a =>
    cases h
    split <;> exact hnone
  | halt x => cases h; rfl

end FaultCode

end Sys2Proof.Machine
end

section
/-! PROOFS. When a running engine has a step and what it answers: O6, O8 to O11 and O35 (R80 to R88, R113, R115). -/

namespace Sys2Proof.Machine

/-! ### A step past its fetch -/

theorem step_of_halted {s : State} (h : s.run = .halted) : step s = .fault .halted := by
  simp only [step, cycle, h]

theorem step_of_hold {s : State} (hrun : s.run = .running) (hhold : s.hold = true) : step s = execute s := by
  simp only [step, cycle, hrun, hhold, if_true]

theorem step_of_hold_of_decode {s t : State} {i : Instr} (hrun : s.run = .running) (hhold : s.hold = true)
    (hsettled : dispatchSettled s.cfg.opc s.ir = true) (hdec : decode s.cfg.opc s.ir = .ok i) (hexec : exec i s = .next t) :
    step s = .next (advance t) :=
  (step_of_hold hrun hhold).trans (execute_of_decode hsettled hdec hexec)

theorem exists_execute_next {s : State} (hsettled : dispatchSettled s.cfg.opc s.ir = true) : ∃ t, execute s = .next t := by
  rcases hdec : decode s.cfg.opc s.ir with e | i
  · exact ⟨_, execute_illegal hsettled hdec⟩
  · obtain ⟨t, ht⟩ := everyInstructionAnswersANextState i s
    exact ⟨_, execute_of_decode hsettled hdec ht⟩

theorem exists_step_next {s : State} (hrun : s.run = .running)
    (hsettled : dispatchSettled s.cfg.opc s.atExecute.ir = true) : ∃ t, step s = .next t := by
  cases hhold : s.hold
  · rw [State.atExecute_of_not_hold hhold] at hsettled
    by_cases hip : s.ip.toNat ≤ 99
    · rcases drawAllows_one_or s.storeDraw with hdraw | hdraw
      · rw [step_of_fetchable (fetchable_iff.mpr ⟨hrun, hhold, hip, hdraw⟩)]
        exact exists_execute_next hsettled
      · exact ⟨_, step_of_fetch_stop hrun hhold (fetch_storeFault hip hdraw)⟩
    · exact ⟨_, step_of_fetch_stop hrun hhold (fetch_outside (not_le.mp hip))⟩
  · rw [State.atExecute_of_hold hhold] at hsettled
    rw [step_of_hold hrun hhold]
    exact exists_execute_next hsettled

/-- Settles O11: the two answers after an end, and the step of every running engine. -/
theorem onlyEndedRunsHaveNoStep : Obligations.OnlyEndedRunsHaveNoStep :=
  ⟨fun _ => step_of_halted, fun _ _ => step_of_faulted, fun _ => exists_step_next⟩

/-- Settles O6: past its fetch a step is the execute phase of the decoded instruction, and then the advance. -/
theorem stepRunsTheDecodedInstruction : Obligations.StepRunsTheDecodedInstruction := by
  refine ⟨fun s i hrun => ?_, fun s i hrun hhold hsettled hdec => ?_⟩
  · obtain ⟨t, ht⟩ := everyInstructionAnswersANextState i s.afterFetch
    exact ⟨t, ht, step_of_willRun hrun ht⟩
  · obtain ⟨t, ht⟩ := everyInstructionAnswersANextState i s
    exact ⟨t, ht, step_of_hold_of_decode hrun hhold hsettled hdec ht⟩

/-- Settles O8: the step ends where its fetch stops. -/
theorem storeFaultAtFetch : Obligations.StoreFaultAtFetch := fun _ hrun hhold hip hdraw =>
  step_of_fetch_stop hrun hhold (fetch_storeFault hip hdraw)

/-- Settles O9: an opcode byte outside OPC does not decode. -/
theorem illegalOpcodeFaults : Obligations.IllegalOpcodeFaults := by
  intro s hfetch hsettled hnot
  exact (step_of_fetchable hfetch).trans (execute_illegal (s := s.afterFetch) hsettled (decode_of_opcode_not_mem hnot))

/-! ### The hold -/

theorem core_run_of_step_self {s : State} (h : step s = .next s) (k : Nat) : Sys2Proof.core.run k s = .next s := by
  induction k with
  | zero => exact core_run_zero s
  | succ k ih => rw [core_run_succ_of_next h, ih]

theorem exec_of_asksInput {s : State} {i : Instr} (hasks : s.asksInput i) (hnone : s.input[s.inputPos]? = none) :
    exec i s = .next (s.setHold true) := by
  obtain ⟨a, ⟨rfl, ha⟩ | ⟨rfl, hfits⟩⟩ := hasks
  · exact exec_rdi_holds ha hnone
  · exact exec_rds_holds hfits hnone

theorem State.setHold_self {s : State} (h : s.hold = true) : s.setHold true = s := by rw [State.setHold, ← h]

theorem step_of_willRun_asksInput {s : State} {i : Instr} (hrun : s.willRun i) (hasks : s.asksInput i)
    (hnone : s.input[s.inputPos]? = none) : step s = .next { s.afterFetch with hold := true } := by
  rw [step_of_willRun hrun (exec_of_asksInput (s := s.afterFetch) hasks hnone), advance_off (.inr rfl)]
  rfl

/-- Settles O10: with no answer the execute phase changes nothing but the hold, and with one it takes it. -/
theorem holdLastsUntilTheAnswer : Obligations.HoldLastsUntilTheAnswer := by
  refine ⟨fun s a hrun hnone => ?_, fun s hhold hok hsettled => ?_⟩
  · obtain ⟨hrun, ha⟩ | ⟨hrun, hfits⟩ := hrun
    · exact step_of_willRun_asksInput hrun ⟨a, .inl ⟨rfl, ha⟩⟩ hnone
    · exact step_of_willRun_asksInput hrun ⟨a, .inr ⟨rfl, hfits⟩⟩ hnone
  · obtain ⟨hrun, -, -, i, hdec, hasks⟩ := holdOk_iff.mp hok hhold
    refine ⟨fun hnone k => ⟨?_, by simp [State.ended, hrun]⟩, fun hsome => ?_⟩
    · have hexec := exec_of_asksInput hasks hnone
      rw [State.setHold_self hhold] at hexec
      have hstep := step_of_hold_of_decode hrun hhold hsettled hdec hexec
      rw [advance_off (.inr hhold)] at hstep
      exact core_run_of_step_self hstep k
    · obtain ⟨t, ht⟩ := everyInstructionAnswersANextState i s
      obtain ⟨hnone, -⟩ | ⟨-, hfree, hpos⟩ := (exec_execTo ht).of_asksInput hasks
      · exact absurd hnone hsome
      refine ⟨_, step_of_hold_of_decode hrun hhold hsettled hdec ht, ?_, by rw [advance_inputPos, hpos]⟩
      rw [advance_hold, hfree]

/-! ### The first check that fails -/

theorem State.StepTo.faultCode {s t : State} (h : s.StepTo t) (hrun : s.run = .running) (hhold : s.hold = false) :
    t.run.faultCode = s.firstFault := by
  have hfetched (hpast : s.pastFetch) : s.ip.toNat ≤ 99 ∧ drawAllows 1 s.storeDraw = true :=
    hpast.resolve_left (by simp [hhold])
  cases h with
  | fetchOutside _ hip =>
    rw [State.firstFault, if_pos hip]
    rfl
  | fetchFails _ hip hdraw =>
    rw [State.firstFault, if_neg hip.not_gt, if_neg (by simp [hdraw])]
    rfl
  | illegal hpast hdec =>
    obtain ⟨hip, hdraw⟩ := hfetched hpast
    rw [State.atExecute_of_not_hold hhold] at hdec
    have hdec : decode s.cfg.opc s.wordAtIp = .error _ := hdec
    rw [State.firstFault, if_neg hip.not_gt, if_pos hdraw, hdec]
    rfl
  | runs hpast hdec hexec =>
    obtain ⟨hip, hdraw⟩ := hfetched hpast
    rw [State.atExecute_of_not_hold hhold] at hdec hexec
    have hdec : decode s.cfg.opc s.wordAtIp = .ok _ := hdec
    rw [State.firstFault, if_neg hip.not_gt, if_pos hdraw, hdec, advance_run]
    exact exec_faultCode (s := s.afterFetch) (faultCode_of_running hrun) hexec

/-- Settles O35: each way to the next state names the check it fails at, and an execute phase fails at its own first. -/
theorem firstFailingCheckIsReported : Obligations.FirstFailingCheckIsReported := by
  refine ⟨fun s hrun hhold hsettled => ?_, fun s i hrun hhold hsettled hdec => ?_⟩
  · obtain ⟨t, ht⟩ := exists_step_next hrun (by rw [State.atExecute_of_not_hold hhold]; exact hsettled)
    exact ⟨t, ht, (step_next ht).2.faultCode hrun hhold⟩
  · obtain ⟨t, ht⟩ := everyInstructionAnswersANextState i s
    refine ⟨_, step_of_hold_of_decode hrun hhold hsettled hdec ht, ?_⟩
    rw [advance_run, exec_faultCode (faultCode_of_running hrun) ht]

end Sys2Proof.Machine
end

section
/-! PROOFS. The steps of B, BN and BZ, and O23 to O25 (R100 to R102). -/

namespace Sys2Proof.Machine

/-- The step of an instruction whose execute phase changes nothing moves IP to the next Word. -/
theorem step_of_exec_self {s : State} {i : Instr} (hrun : s.willRun i) (hexec : exec i s.afterFetch = .next s.afterFetch) :
    step s = .next { s.afterFetch with ip := s.ip + 1 } := by
  obtain ⟨hrunning, hhold⟩ := hrun.running_not_held
  rw [step_of_willRun hrun hexec, advance_on (s := s.afterFetch) hrunning hhold]
  rfl

theorem afterFetch_willRun {s : State} {i : Instr} (hrun : s.willRun i) (hdraw : s.storeDraw = none) :
    s.afterFetch.willRun i := by
  obtain ⟨hfetch, hsettled, hdec⟩ := hrun
  obtain ⟨hrunning, hhold, hip, -⟩ := fetchable_iff.mp hfetch
  exact ⟨fetchable_iff.mpr ⟨hrunning, hhold, hip, by simp [State.afterFetch, hdraw]⟩, hsettled, hdec⟩

theorem afterFetch_afterFetch {s : State} (hdraw : s.storeDraw = none) : s.afterFetch.afterFetch = s.afterFetch := by
  simp [State.afterFetch, State.wordAtIp, hdraw]

/-- A branch to its own address comes back to the state after its fetch (R100). -/
theorem step_of_self_branch {s : State} {a : Byte} (hrun : s.willRun (.b a)) (hip : s.ip.toNat = a.toNat) :
    step s = .next s.afterFetch := by
  have hself : BitVec.ofNat 16 a.toNat = s.ip := by rw [← hip, BitVec.ofNat_toNat, BitVec.setWidth_eq]
  rw [step_of_takesBranch (.inl rfl) hrun, hself]
  rfl

/-- Settles O23: the taken branch, and the state after the fetch as a fixed point of the step of a branch to itself. -/
theorem bBranchesAlways : Obligations.BBranchesAlways := by
  intro s a
  refine ⟨rfl, exec_of_takesBranch (.inl rfl), step_of_takesBranch (.inl rfl), fun hrun hdraw hip k => ?_⟩
  have hfix := step_of_self_branch (afterFetch_willRun hrun hdraw) hip
  rw [afterFetch_afterFetch hdraw] at hfix
  rw [core_run_succ_of_next (step_of_self_branch hrun hip), core_run_of_step_self hfix k]

/-- Settles O24: ACC's sign chooses between the taken branch and an execute phase that changes nothing. -/
theorem bnBranchesIfNegative : Obligations.BnBranchesIfNegative := fun _ _ =>
  ⟨rfl, exec_bn_of_neg, exec_bn_of_nonneg, fun hrun =>
    ⟨fun hneg => step_of_takesBranch (.inr (.inl ⟨rfl, hneg⟩)) hrun, fun h => step_of_exec_self hrun (exec_bn_of_nonneg h)⟩⟩

/-- Settles O25: as BN, with ACC compared with zero. -/
theorem bzBranchesIfZero : Obligations.BzBranchesIfZero := fun _ _ =>
  ⟨rfl, exec_bz_of_zero, exec_bz_of_ne_zero, fun hrun =>
    ⟨fun hzero => step_of_takesBranch (.inr (.inr ⟨rfl, hzero⟩)) hrun, fun h => step_of_exec_self hrun (exec_bz_of_ne_zero h)⟩⟩

end Sys2Proof.Machine
end

section
/-! PROOFS. The launch and the first step of a run, O29, O42 and O44; the layout of Words and bytes, O31; and the Word an RDI writes
before it is fetched, O32 (R33, R39, R50, R89, R130). -/

namespace Sys2Proof.Machine

/-! ### The launch -/

/-- Settles O42: the entry's check is the only one. -/
theorem launchStartsTheRun : Obligations.LaunchStartsTheRun := by
  intro c l m
  by_cases hentry : l.entry ≤ 99
  · have hlaunch : launch c l m = .ok _ := if_pos (decide_eq_true hentry)
    obtain ⟨hip, -⟩ := launch_ip hlaunch
    exact ⟨by simp [hlaunch, hentry], fun _ => ⟨_, hlaunch, hip, rfl, rfl, rfl, rfl, rfl, rfl, rfl, rfl⟩⟩
  · have hlaunch : launch c l m = .error .entryOutOfRange := if_neg (mt of_decide_eq_true hentry)
    exact ⟨⟨fun _ => not_le.mp hentry, fun _ => hlaunch⟩, fun h => absurd h hentry⟩

theorem launch_fetchable {c : Config} {l : LaunchInput} {m : Memory} {s : State} (h : launch c l m = .ok s)
    (hdraw : drawAllows 1 l.storeDraw = true) : s.fetchable = true := by
  obtain ⟨-, hip⟩ := launch_ip h
  obtain ⟨-, rfl⟩ := launch_cases h
  exact fetchable_iff.mpr ⟨rfl, rfl, hip, hdraw⟩

/-- Settles O44: the fetch writes IR, so the two launches are the same state after it. -/
theorem launchIrIsUnobservable : Obligations.LaunchIrIsUnobservable := by
  intro c l m v s s' hlaunch hlaunch' hdraw
  rw [step_of_fetchable (launch_fetchable hlaunch hdraw), step_of_fetchable (launch_fetchable hlaunch' hdraw)]
  obtain ⟨-, rfl⟩ := launch_cases hlaunch
  obtain ⟨-, rfl⟩ := launch_cases hlaunch'
  rfl

/-- Settles O29: the step of END from a launch, whose output is empty. -/
theorem firstWordEndEndsTheRun : Obligations.FirstWordEndEndsTheRun := by
  intro c l m s x hlaunch hrun
  obtain ⟨hip, -⟩ := launch_ip hlaunch
  have hstep := step_of_halt hrun
  obtain ⟨-, rfl⟩ := launch_cases hlaunch
  exact ⟨_, hstep, rfl, hip, rfl, by rw [State.wordAtIp, hip]; rfl, step_of_halted rfl⟩

/-! ### Words and bytes -/

theorem Memory.writeBytes_pair (m : Memory) (a : Nat) (lo hi : Byte) :
    Memory.writeBytes m (2 * a) [lo, hi] = Memory.writeWord m a (packWord hi lo) := by
  simp [Memory.writeBytes, Memory.writeWord]

theorem Memory.readBytes_pair (m : Memory) (a : Nat) :
    Memory.readBytes m (2 * a) 2 = [operandOf (Memory.readWord m a), opcodeOf (Memory.readWord m a)] := by
  simp [Memory.readBytes, Memory.readWord]

/-- Settles O31: the two bytes of a Word, read and written as a pair. -/
theorem wordsAndBytesShareOneLayout : Obligations.WordsAndBytesShareOneLayout := by
  intro m a v lo hi hwf ha
  refine ⟨?_, ?_, fun c hc => Memory.readWord_writeWord_other hwf ha hc v⟩
  · rw [Memory.readBytes_pair, Memory.readWord_writeWord_same hwf ha]
  · rw [Memory.writeBytes_pair, Memory.readWord_writeWord_same hwf ha]

/-! ### Memory and code -/

theorem toNat_add_one {w : Word} {n : Nat} (h : n = w.toNat + 1) (hn : n ≤ 99) : (w + 1).toNat = n := by
  bv_omega

/-- The step of an RDI that stores its integer: the execute phase, its fetch before it and the advance after it. -/
theorem step_of_rdi_ok {s : State} {a : Byte} {ans : Answer} {n : Int} (hrun : s.willRun (.rdi a)) (ha : wordAddr a ≤ 99)
    (hans : s.input[s.inputPos]? = some ans) (hint : ans.asInt = .int n) (hfits : fitsInt32 n = true)
    (hdraw : drawAllows 1 (drawAfter 1 s.storeDraw) = true) :
    step s = .next
      { s.afterFetch with
        ip := s.ip + 1, mem := Memory.writeWord s.mem (wordAddr a) (wrap16 n), inputPos := s.inputPos + 1, hold := false
        storeDraw := drawAfter 1 (drawAfter 1 s.storeDraw) } := by
  obtain ⟨hrunning, -⟩ := hrun.running_not_held
  rw [step_of_willRun hrun (exec_rdi_ok (s := s.afterFetch) ha hans hint hfits hdraw)]
  exact congrArg Host.Outcome.next (advance_on hrunning rfl)

theorem ir_of_step {s t : State} {w : Word} (hfetch : s.fetchable = true) (hword : s.wordAtIp = w) (h : step s = .next t) :
    t.ir = w := by
  rw [step_of_fetchable hfetch] at h
  exact (execute_ir h).trans hword

/-- Settles O32: after the step of the RDI the engine fetches at the address it wrote, with an access left in the draw. -/
theorem writtenWordIsFetchedNext : Obligations.WrittenWordIsFetchedNext := by
  intro s a ans n hrun hwf ha hnext hans hint hfits hdraw
  obtain ⟨hrunning, -⟩ := hrun.running_not_held
  obtain ⟨-, hdraw⟩ := drawAllows_add (m := 1) (n := 2) hdraw
  obtain ⟨hdrawRdi, hdrawNext⟩ := drawAllows_add (m := 1) (n := 1) hdraw
  have hip := toNat_add_one hnext ha
  have hword : Memory.readWord (Memory.writeWord s.mem (wordAddr a) (wrap16 n)) (s.ip + 1).toNat = wrap16 n := by
    rw [hip, Memory.readWord_writeWord_same hwf ha]
  refine ⟨_, step_of_rdi_ok hrun ha hans hint hfits hdrawRdi, ?hfetch, hip, hword, fun u => ir_of_step ?hfetch hword⟩
  exact fetchable_iff.mpr ⟨hrunning, rfl, hip.trans_le ha, hdrawNext⟩

end Sys2Proof.Machine
end

section
/-! PROOFS. A stream some Word of which overflows, and the opcode bytes the loader relocates under the default OPC; O47 and O49 from
these (R133, R136, R137). -/

namespace Sys2Proof.Machine

/-! ### Refused loads -/

theorem relocAll_eq_none_iff {opc : Opc} {base : Nat} {ws : List Word} :
    relocAll opc base ws = none ↔ ∃ w ∈ ws, reloc opc base w = none := by
  induction ws with
  | nil => simp [relocAll]
  | cons w ws ih =>
    cases hw : reloc opc base w <;> cases hws : relocAll opc base ws <;> simp [relocAll, hw, hws, ← ih]

theorem load_of_outside {opc : Opc} {base : Nat} {ws : List Word} (m : Memory) (h : 99 < base ∨ 100 < base + ws.length) :
    load opc base ws m = .error .loadOutOfRange :=
  if_neg fun ⟨hbase, hfits⟩ => by
    have hbase : base ≤ 99 := of_decide_eq_true hbase
    omega

theorem load_of_overflow {opc : Opc} {base : Nat} {ws : List Word} (m : Memory) (hbase : base ≤ 99)
    (hfits : base + ws.length ≤ 100) (hover : relocAll opc base ws = none) :
    load opc base ws m = .error .relocationOverflow := by
  rw [load, if_pos ⟨decide_eq_true hbase, hfits⟩, hover]

/-- Settles O47: the range check comes first, and a stream that passes it is relocated whole or not at all. -/
theorem loadsThatDoNotFitAreRefused : Obligations.LoadsThatDoNotFitAreRefused := by
  intro opc base ws m
  refine ⟨⟨fun hload => ?_, load_of_outside m⟩, fun hbase hfits => ⟨fun hover => ?_, fun hnone => ?_⟩⟩
  · by_contra hin
    have hbase : base ≤ 99 := by omega
    have hfits : base + ws.length ≤ 100 := by omega
    cases hvs : relocAll opc base ws with
    | none => cases hload.symm.trans (load_of_overflow m hbase hfits hvs)
    | some vs => cases hload.symm.trans (load_eq_ok_iff.mpr ⟨hbase, hfits, vs, hvs, rfl⟩)
  · exact load_of_overflow m hbase hfits (relocAll_eq_none_iff.mpr hover)
  · have hsome : relocAll opc base ws ≠ none := fun h => by
      obtain ⟨w, hw, hover⟩ := relocAll_eq_none_iff.mp h
      exact hnone w hw hover
    obtain ⟨vs, hvs⟩ := Option.ne_none_iff_exists'.mp hsome
    exact ⟨_, load_eq_ok_iff.mpr ⟨hbase, hfits, vs, hvs, rfl⟩⟩

/-! ### The Words a load alters -/

theorem reloc_zero (opc : Opc) (w : Word) : reloc opc 0 w = some w := by
  by_cases hop : opcodeOf w ∈ [opc.rdi, opc.rds, opc.prti, opc.prts, opc.b, opc.bn, opc.bz]
  · rw [reloc_of_fits hop (Nat.le_of_lt_succ (operandOf w).isLt), Nat.add_zero, BitVec.ofNat_toNat, BitVec.setWidth_eq,
      packWord_opcodeOf_operandOf]
  · exact reloc_of_not_memoryReferencing 0 hop

theorem mem_default_memoryReferencing_iff (o : Byte) :
    o ∈ [Opc.default.rdi, Opc.default.rds, Opc.default.prti, Opc.default.prts, Opc.default.b, Opc.default.bn, Opc.default.bz] ↔
      o.toNat ∈ [10, 11, 12, 13, 40, 41, 42] :=
  (List.mem_map_of_injective (f := BitVec.toNat) fun _ _ => BitVec.eq_of_toNat_eq).symm

theorem opcode_default_range_iff (w : Word) :
    (opcodeOf w).toNat ∈ [10, 11, 12, 13, 40, 41, 42] ↔
      (0x0A00 ≤ w.toNat ∧ w.toNat ≤ 0x0DFF) ∨ (0x2800 ≤ w.toNat ∧ w.toNat ≤ 0x2AFF) := by
  simp only [List.mem_cons, List.not_mem_nil, or_false, opcodeOf_toNat]
  omega

/-- A relocation that changes a Word adds the base to it: the operand has room for it. -/
theorem reloc_toNat {opc : Opc} {base : Nat} {w : Word}
    (hop : opcodeOf w ∈ [opc.rdi, opc.rds, opc.prti, opc.prts, opc.b, opc.bn, opc.bz])
    (hfits : (operandOf w).toNat + base ≤ 255) : ∃ v, reloc opc base w = some v ∧ v.toNat = w.toNat + base := by
  refine ⟨_, reloc_of_fits hop hfits, ?_⟩
  rw [packWord_toNat, BitVec.toNat_ofNat, Nat.mod_eq_of_lt (Nat.lt_succ_of_le hfits), opcodeOf_toNat, operandOf_toNat]
  omega

theorem reloc_default_ne_iff {base : Nat} {w : Word} (hbase : 1 ≤ base) (hfits : (operandOf w).toNat + base ≤ 255) :
    reloc Opc.default base w ≠ some w ↔ (opcodeOf w).toNat ∈ [10, 11, 12, 13, 40, 41, 42] := by
  rw [← mem_default_memoryReferencing_iff]
  refine ⟨fun hne => by_contra fun hop => hne (reloc_of_not_memoryReferencing base hop), fun hop heq => ?_⟩
  obtain ⟨v, hv, hval⟩ := reloc_toNat hop hfits
  cases hv.symm.trans heq
  omega

/-- Settles O49: the seven default opcode bytes, as a set of bytes and as two ranges of Words, and a base that is not 0. -/
theorem lookAlikeDataIsRelocated : Obligations.LookAlikeDataIsRelocated := by
  refine ⟨fun base w hbase _ hfits => ?_, reloc_zero⟩
  have hne := reloc_default_ne_iff hbase hfits
  exact ⟨hne.trans (opcode_default_range_iff w), hne, fun h =>
    reloc_toNat ((mem_default_memoryReferencing_iff _).mpr (hne.mp h)) hfits⟩

end Sys2Proof.Machine
end

section
/-! PROOFS. Lines of the assembler's input: an instruction by its mnemonic, O52; and a Word written in hexadecimal, lexed and read
back digit by digit, O50 (R64 to R72). -/

namespace Sys2Proof.Machine

/-! ### Mnemonics -/

@[simp] theorem lookupMnemonic_mnemonicText (m : Mnemonic) : lookupMnemonic (mnemonicText m) = some m := by
  cases m <;> rfl

theorem encodeInstr_mnemonicText (opc : Opc) (m : Mnemonic) (v : Nat) :
    encodeInstr opc (mnemonicText m) v =
      if v ≤ 255 then .ok [encode opc (m.instr (BitVec.ofNat 8 v))] else .error .invalidInstruction := by
  simp only [encodeInstr, lookupMnemonic_mnemonicText]

/-- Settles O52: the four forms of an instruction line differ in where the operand comes from. -/
theorem instructionLinesEmitTheirWord : Obligations.InstructionLinesEmitTheirWord := by
  intro opc table m
  refine ⟨encodeInstr_mnemonicText opc m 0, fun l v hv => ?_, fun r hr => ?_, fun r v hr hv => ?_⟩
  · rw [encodeLine, hv]
    exact encodeInstr_mnemonicText opc m v
  · rw [encodeLine, hr]
  · rw [encodeLine, hr]
    exact (encodeInstr_mnemonicText opc m v).trans (if_pos hv)

/-! ### A line of one plain token -/

/-- A character that neither ends a token nor opens a string nor ends a label, and that stays printable in upper case. -/
def isPlainChar (c : Byte) : Bool :=
  decide (c ≠ quoteChar) && decide (c ≠ colonChar) && !isSpaceChar c && isPrintableChar (upperChar c)

theorem forall_isPlainChar_iff {t : Text} :
    (∀ c ∈ t, isPlainChar c = true) ↔
      (∀ c ∈ t, c ≠ quoteChar) ∧ (∀ c ∈ t, c ≠ colonChar) ∧ (∀ c ∈ t, isSpaceChar c = false) ∧
        ∀ c ∈ t, isPrintableChar (upperChar c) = true := by
  simp [isPlainChar, and_assoc, forall_and]

theorem splitText_of_forall_not {p : Byte → Bool} {t : Text} (h : ∀ c ∈ t, p c = false) : splitText p t = [t] := by
  induction t with
  | nil => rfl
  | cons c cs ih =>
    rw [splitText, if_neg (by simp [h c (by simp)]), ih fun d hd => h d (by simp [hd])]

theorem cleanToken_of_printable {t : Text} (h : ∀ c ∈ t, isPrintableChar (upperChar c) = true) :
    cleanToken t = t.map upperChar := by
  have hself : (t.map upperChar).reverse.dropWhile (fun c => !isPrintableChar c) = (t.map upperChar).reverse :=
    List.dropWhile_eq_self_iff.mpr fun hl => by
      have hmem := List.getElem_mem hl
      rw [List.mem_reverse, List.mem_map] at hmem
      obtain ⟨c, hc, hlast⟩ := hmem
      simp [← hlast, h c hc]
  rw [cleanToken, hself, List.reverse_reverse]

theorem lexLine_of_plain {t : Text} (hne : t ≠ []) (h : ∀ c ∈ t, isPlainChar c = true) :
    lexLine t = { label := none, body := .tokens [t.map upperChar] } := by
  obtain ⟨hquotes, hcolons, hspaces, hprintable⟩ := forall_isPlainChar_iff.mp h
  have hquote : quoteChar ∉ t := fun hmem => hquotes _ hmem rfl
  have hcolon : colonChar ∉ t := fun hmem => hcolons _ hmem rfl
  have hsplit := splitText_of_forall_not hspaces
  have hclean := cleanToken_of_printable hprintable
  simp [lexLine, hquote, splitLabel, hcolon, tokensOf, hsplit, hclean, hne]

/-! ### Hexadecimal digits -/

theorem isPlainChar_hexDigitChar : ∀ d < 16, isPlainChar (hexDigitChar d) = true := by decide

theorem upperChar_hexDigitChar : ∀ d < 16, upperChar (hexDigitChar d) = hexDigitChar d := by decide

theorem digitValue_hexDigitChar : ∀ d < 16, digitValue (hexDigitChar d) = some d := by decide

theorem digitsFrom_hexDigitChar {d : Nat} (h : d < 16) (acc : Nat) (cs : Text) :
    digitsFrom 16 acc (hexDigitChar d :: cs) = digitsFrom 16 (acc * 16 + d) cs := by
  simp only [digitsFrom, digitValue_hexDigitChar d h, if_pos h]

section HexWord
variable (w : Word)

/-- The four hexadecimal digits of a Word are below 16. -/
theorem hexDigits_lt : w.toNat / 4096 < 16 ∧ w.toNat / 256 % 16 < 16 ∧ w.toNat / 16 % 16 < 16 ∧ w.toNat % 16 < 16 := by
  have := w.isLt
  omega

theorem hexWordText_plain : ∀ c ∈ hexWordText w, isPlainChar c = true := by
  obtain ⟨h3, h2, h1, h0⟩ := hexDigits_lt w
  simp only [hexWordText, List.forall_mem_cons]
  exact ⟨by decide, by decide, isPlainChar_hexDigitChar _ h3, isPlainChar_hexDigitChar _ h2, isPlainChar_hexDigitChar _ h1,
    isPlainChar_hexDigitChar _ h0, nofun⟩

theorem map_upperChar_hexWordText : (hexWordText w).map upperChar = 0x30 :: 0x58 :: (hexWordText w).drop 2 := by
  obtain ⟨h3, h2, h1, h0⟩ := hexDigits_lt w
  simp only [hexWordText, List.map_cons, List.map_nil, upperChar_hexDigitChar _ h3, upperChar_hexDigitChar _ h2,
    upperChar_hexDigitChar _ h1, upperChar_hexDigitChar _ h0]
  rfl

theorem literalValue_hexWordText : literalValue (0x30 :: 0x58 :: (hexWordText w).drop 2) = some w.toNat := by
  obtain ⟨h3, h2, h1, h0⟩ := hexDigits_lt w
  have hdigits : literalValue (0x30 :: 0x58 :: (hexWordText w).drop 2) = digitsFrom 16 0 ((hexWordText w).drop 2) := rfl
  rw [hdigits, hexWordText, List.drop_succ_cons, List.drop_succ_cons, List.drop_zero, digitsFrom_hexDigitChar h3,
    digitsFrom_hexDigitChar h2, digitsFrom_hexDigitChar h1, digitsFrom_hexDigitChar h0, digitsFrom]
  congr 1
  omega

end HexWord

theorem wrap16_toNat (w : Word) : wrap16 w.toNat = w := by
  rw [wrap16, BitVec.ofInt_natCast, BitVec.ofNat_toNat, BitVec.setWidth_eq]

/-- Settles O50: the line is one plain token that starts with a digit, and its value is the Word's. -/
theorem hexDataWordEmitsItsPattern : Obligations.HexDataWordEmitsItsPattern := by
  intro opc table w
  rw [lexLine_of_plain (by simp [hexWordText]) (hexWordText_plain w), map_upperChar_hexWordText]
  have hline : encodeLexed opc table { label := none, body := .tokens [0x30 :: 0x58 :: (hexWordText w).drop 2] } =
      encodeLine opc table (.dataWord (0x30 :: 0x58 :: (hexWordText w).drop 2)) := rfl
  rw [hline, encodeLine, literalValue_hexWordText]
  exact congrArg (fun v => Except.ok [v]) (wrap16_toNat w)

end Sys2Proof.Machine
end

section
/-! PROOFS. The two passes over a source cut at one line: the definition a label's line makes, the address it ends with, and the Words
that stand there; O53, O54 and O55 from these (R66, R74 to R76). -/

namespace Sys2Proof.Machine

/-! ### Assemblies without errors -/

theorem encodePass_errors_of_not_badProgram {opc : Opc} {ls : List LexedLine} (h : (assembleLines opc ls).badProgram = false) :
    (encodePass opc (assembleLines opc ls).table 1 ls).2 = [] := by
  have herrors : (assembleLines opc ls).errors = [] := by simpa [Assembly.badProgram] using h
  exact herrors

theorem assemble_eq_ok {opc : Opc} {isComment : Text → Bool} {src : Text} {r : Assembly}
    (h : assemble opc isComment src = .ok r) : r = assembleLines opc (lexSource isComment src) := by
  simp only [assemble] at h
  split_ifs at h
  cases h
  rfl

/-- Settles O53: pass 2 emits what the tags count, line by line. -/
theorem cleanAssemblyCountsItsWords : Obligations.CleanAssemblyCountsItsWords := by
  intro opc isComment src r hr hgood
  rw [assemble_eq_ok hr] at hgood ⊢
  exact encodePass_length (encodePass_errors_of_not_badProgram hgood)

/-! ### Pass 1 at the line of a label -/

/-- Pass 1 over these lines, from its start. -/
def passOver (ls : List LexedLine) : LabelPass := labelPass { index := 0, defs := [] } 1 ls

theorem assembleLines_table (opc : Opc) (ls : List LexedLine) : (assembleLines opc ls).table = (passOver ls).table := rfl

theorem passOver_index (ls : List LexedLine) : (passOver ls).index = (ls.map (fun b => wordsEmitted (classify b))).sum :=
  (labelPass_index ls _ 1).trans (Nat.zero_add _)

theorem passOver_names (ls : List LexedLine) : (passOver ls).defs.map (·.name) = ls.filterMap (·.label) := by
  obtain ⟨f, own, -, -, hdefs, hown, -⟩ := labelPass_defs ls { index := 0, defs := [] } 1
  rw [passOver, hdefs, ← hown]
  rfl

theorem passOver_append (ls ls' : List LexedLine) :
    passOver (ls ++ ls') = labelPass (passOver ls) (1 + ls.length) ls' := labelPass_append ls ls' _ 1

theorem passOver_append_singleton (ls : List LexedLine) (l : LexedLine) :
    passOver (ls ++ [l]) = labelPassLine (passOver ls) (1 + ls.length) l := passOver_append ls [l]

theorem labelPassLine_defs_own {p : LabelPass} {k : Nat} {l : LexedLine} {n : Text} (hl : l.label = some n)
    (htag : classify l ≠ .labelOnly) :
    (labelPassLine p k l).defs = p.defs ++ [{ name := n, line := k, addr := some p.index }] := by
  unfold labelPassLine
  rw [hl]
  split
  case h_1 hlabel htag' => exact absurd htag' htag
  case h_2 hlabel _ => cases hlabel; rfl
  case h_3 hlabel _ | h_4 hlabel _ => cases hlabel

theorem labelPassLine_defs_saved {p : LabelPass} {k : Nat} {l : LexedLine} {n : Text} (hl : l.label = some n)
    (htag : classify l = .labelOnly) :
    (labelPassLine p k l).defs = p.defs ++ [{ name := n, line := k, addr := none }] := by
  simp [labelPassLine, hl, htag]

theorem labelPassLine_defs_bind {p : LabelPass} {k : Nat} {l : LexedLine} (hl : l.label = none) (htag : classify l ≠ .blank) :
    (labelPassLine p k l).defs = p.defs.map (LabelDef.bind p.index) := by
  unfold labelPassLine
  rw [hl]
  split
  case h_1 hlabel _ | h_2 hlabel _ => cases hlabel
  case h_3 _ htag' => exact absurd htag' htag
  case h_4 => rfl

/-- The first definition of `n` in pass 1 has this address: `none` while the label is saved (R74, R75). -/
def LabelPass.FirstDefines (p : LabelPass) (n : Text) (addr : Option Nat) : Prop :=
  ∃ d1 d d2, p.defs = d1 ++ d :: d2 ∧ (∀ e ∈ d1, e.name ≠ n) ∧ d.name = n ∧ d.addr = addr

namespace LabelPass.FirstDefines

theorem resolve {p : LabelPass} {n : Text} {i : Nat} (h : p.FirstDefines n (some i)) : resolveLabel p.table n = some i := by
  obtain ⟨d1, d, d2, hdefs, hfirst, rfl, haddr⟩ := h
  exact resolveLabel_table hdefs hfirst haddr

/-- Later lines keep the first definition: one that has its address, and a saved one while they bind nothing. -/
theorem labelPass {p : LabelPass} {n : Text} {addr : Option Nat} (h : p.FirstDefines n addr) (k : Nat) (ls : List LexedLine)
    (hkeep : addr.isSome = true ∨ ∀ l ∈ ls, l.label.isSome = true ∨ classify l = .blank) :
    (Machine.labelPass p k ls).FirstDefines n addr := by
  obtain ⟨d1, d, d2, hdefs, hfirst, hname, rfl⟩ := h
  obtain ⟨f, own, hfname, hfaddr, hpass, -, hid⟩ := labelPass_defs ls p k
  have hd : f d = d := by
    obtain hsome | hnone := hkeep
    · obtain ⟨i, hi⟩ := Option.isSome_iff_exists.mp hsome
      exact hfaddr d i hi
    · rw [hid hnone, id]
  refine ⟨d1.map f, d, d2.map f ++ own, ?_, ?_, hname, rfl⟩
  · simp [hpass, hdefs, hd]
  · simpa [hfname] using hfirst

/-- A line of its own Words and no label gives a saved first definition its index. -/
theorem bind {p : LabelPass} {n : Text} (h : p.FirstDefines n none) (k : Nat) {u : LexedLine} (hu : u.label = none)
    (hutag : classify u ≠ .blank) : (labelPassLine p k u).FirstDefines n (some p.index) := by
  obtain ⟨d1, d, d2, hdefs, hfirst, hname, haddr⟩ := h
  refine ⟨d1.map (LabelDef.bind p.index), d.bind p.index, d2.map (LabelDef.bind p.index), ?_, ?_, ?_,
    LabelDef.bind_of_none haddr⟩
  · rw [labelPassLine_defs_bind hu hutag, hdefs, List.map_append, List.map_cons]
  · simpa using hfirst
  · rw [LabelDef.bind_name, hname]

end LabelPass.FirstDefines

theorem forall_defs_name_ne {ls : List LexedLine} {n : Text} (h : ∀ b ∈ ls, b.label ≠ some n) :
    ∀ d ∈ (passOver ls).defs, d.name ≠ n := by
  intro d hd hname
  have hmem : n ∈ ls.filterMap (·.label) := passOver_names ls ▸ List.mem_map.mpr ⟨d, hd, hname⟩
  obtain ⟨b, hb, hlabel⟩ := List.mem_filterMap.mp hmem
  exact h b hb hlabel

section FirstLine
variable {before : List LexedLine} {l : LexedLine} {n : Text} (hl : l.label = some n)
  (hfirst : ∀ b ∈ before, b.label ≠ some n)
include hl hfirst

/-- A label on a line of its own Words: the first definition of its name has the index of the line. -/
theorem firstDefines_own (after : List LexedLine) (htag : classify l ≠ .labelOnly) :
    (passOver (before ++ l :: after)).FirstDefines n (some (before.map (fun b => wordsEmitted (classify b))).sum) := by
  have hline : (passOver (before ++ [l])).FirstDefines n (some (passOver before).index) := by
    rw [passOver_append_singleton]
    exact ⟨_, _, [], labelPassLine_defs_own hl htag, forall_defs_name_ne hfirst, rfl, rfl⟩
  rw [List.append_cons, passOver_append, ← passOver_index]
  exact hline.labelPass _ after (.inl rfl)

/-- A saved label: the first definition of its name has the index of the next line that binds (R74, R75). -/
theorem firstDefines_saved {between : List LexedLine} (after : List LexedLine) {u : LexedLine} (htag : classify l = .labelOnly)
    (hbetween : ∀ b ∈ between, b.label.isSome = true ∨ classify b = .blank) (hu : u.label = none)
    (hutag : classify u ≠ .blank) :
    (passOver (before ++ l :: (between ++ u :: after))).FirstDefines n
      (some ((before ++ between).map (fun b => wordsEmitted (classify b))).sum) := by
  have hline : (passOver (before ++ [l])).FirstDefines n none := by
    rw [passOver_append_singleton]
    exact ⟨_, _, [], labelPassLine_defs_saved hl htag, forall_defs_name_ne hfirst, rfl, rfl⟩
  have hsaved : (passOver (before ++ l :: between)).FirstDefines n none := by
    rw [List.append_cons, passOver_append]
    exact hline.labelPass _ between (.inr hbetween)
  have hindex : (passOver (before ++ l :: between)).index =
      ((before ++ between).map (fun b => wordsEmitted (classify b))).sum := by
    simp [passOver_index, htag, wordsEmitted]
  have hbound : (passOver ((before ++ l :: between) ++ [u])).FirstDefines n (some (passOver (before ++ l :: between)).index) := by
    rw [passOver_append_singleton]
    exact hsaved.bind _ hu hutag
  rw [← List.cons_append, ← List.append_assoc, List.append_cons, passOver_append, ← hindex]
  exact hbound.labelPass _ after (.inl rfl)

end FirstLine

/-! ### A name on two lines -/

theorem hasDuplicateLabel_of_two {ls : List LexedLine} {l u : LexedLine} {n : Text} (hsub : List.Sublist [l, u] ls)
    (hl : l.label = some n) (hu : u.label = some n) (hn : labelNameOk n = true) : hasDuplicateLabel ls = true := by
  have hpair : List.Sublist [n, n] ((ls.filterMap (·.label)).filter labelNameOk) := by
    have hlabels := (hsub.filterMap (·.label)).filter labelNameOk
    simpa [hl, hu, hn] using hlabels
  have hdup : ¬ ((ls.filterMap (·.label)).filter labelNameOk).Nodup := fun h => by simpa using h.sublist hpair
  simp [hasDuplicateLabel, hdup]

theorem assemble_error_of_duplicate {opc : Opc} {isComment : Text → Bool} {src : Text}
    (h : hasDuplicateLabel (lexSource isComment src) = true) : ∃ e, assemble opc isComment src = .error e := by
  by_cases hlower : hasLowerLabel (lexSource isComment src) = true
  · exact ⟨_, if_pos hlower⟩
  · exact ⟨_, (if_neg hlower).trans (if_pos h)⟩

/-- Settles O55: where pass 1 makes the first definition of a name, and the duplicate check. -/
theorem firstDefinitionWins : Obligations.FirstDefinitionWins := by
  refine ⟨fun opc before after l n hl htag hfirst => ?_,
    fun opc before between after l u n hl htag hfirst hbetween hu hutag => ?_,
    fun opc isComment src before between after l u n hsrc hl hu hn => ?_⟩
  · rw [assembleLines_table]
    exact (firstDefines_own hl hfirst after htag).resolve
  · rw [assembleLines_table]
    exact (firstDefines_saved hl hfirst after htag hbetween hu hutag).resolve
  · have hsub : List.Sublist [l, u] (lexSource isComment src) := by
      rw [hsrc]
      exact List.sublist_append_of_sublist_right
        ((List.sublist_append_of_sublist_right ((List.nil_sublist after).cons_cons u)).cons_cons l)
    exact assemble_error_of_duplicate (hasDuplicateLabel_of_two hsub hl hu hn)

/-! ### The Words at a label -/

/-- Pass 2 without errors, cut at a line: the Words before it, its own, and the rest. -/
theorem encodePass_append_cons {opc : Opc} {table : LabelTable} {before after : List LexedLine} {l : LexedLine} {k : Nat}
    (h : (encodePass opc table k (before ++ l :: after)).2 = []) :
    ∃ pre ws post, encodeLexed opc table l = .ok ws ∧
      (encodePass opc table k (before ++ l :: after)).1 = pre ++ (ws ++ post) ∧
      pre.length = (before.map (fun b => wordsEmitted (classify b))).sum := by
  induction before generalizing k with
  | nil =>
    obtain ⟨ws, hws, hwords, -⟩ := encodePass_cons_ok h
    exact ⟨[], ws, _, hws, hwords, rfl⟩
  | cons b before ih =>
    rw [List.cons_append] at h
    obtain ⟨bs, hbs, hwords, hrest⟩ := encodePass_cons_ok h
    obtain ⟨pre, ws, post, hws, hpre, hlen⟩ := ih hrest
    refine ⟨bs ++ pre, ws, post, hws, ?_, ?_⟩
    · rw [List.cons_append, hwords, hpre, List.append_assoc]
    · rw [List.length_append, encodeLexed_length hbs, hlen, List.map_cons, List.sum_cons]

/-- A label on a line of its own Words stands in the table with the index of the line, first definition or not. -/
theorem mem_table_own (before after : List LexedLine) {l : LexedLine} {n : Text} (hl : l.label = some n)
    (htag : classify l ≠ .labelOnly) :
    (n, (before.map (fun b => wordsEmitted (classify b))).sum) ∈ (passOver (before ++ l :: after)).table := by
  obtain ⟨f, own, -, hfaddr, hdefs, -, -⟩ := labelPass_defs after (passOver (before ++ [l])) (1 + (before ++ [l]).length)
  rw [List.append_cons, passOver_append, LabelPass.table, hdefs, passOver_append_singleton, labelPassLine_defs_own hl htag,
    ← passOver_index]
  have hmem {ds : List LabelDef} {d : LabelDef} (hd : f d = d) : d ∈ (ds ++ [d]).map f ++ own :=
    List.mem_append_left _ (List.mem_map.mpr ⟨d, List.mem_append_right _ (List.mem_singleton_self d), hd⟩)
  exact List.mem_filterMap.mpr ⟨_, hmem (hfaddr _ _ rfl), rfl⟩

/-- Settles O54: both passes give the label's line the number of Words before it. -/
theorem labelIsTheIndexOfItsWord : Obligations.LabelIsTheIndexOfItsWord := by
  intro opc before after l n hl htag hgood
  obtain ⟨pre, ws, post, hws, hwords, hlen⟩ := encodePass_append_cons (encodePass_errors_of_not_badProgram hgood)
  refine ⟨_, mem_table_own before after hl htag, rfl, ws, hws, ?_⟩
  have hout : (assembleLines opc (before ++ l :: after)).words = pre ++ (ws ++ post) := hwords
  rw [hout, ← hlen, List.drop_left, List.take_left]

end Sys2Proof.Machine
end
